-- ==== Sys2Proof/Syntax.lean ====
section
/-! DEFINITION. The five commands of spec/30_encoding.md R62, one constructor per row of spec/opcode_table.json. -/

namespace Sys2Proof

/-- A command of the core. -/
inductive Instr
  /-- `B2B_INIT n`: start a hash with an `n`-byte digest; `n` is the value of the IMM field (R63, R86). -/
  | b2bInit (n : Nat)
  /-- `B2B_UPDATE`: absorb a window of IN (R89). -/
  | b2bUpdate
  /-- `B2B_FINAL`: finish the hash and deliver the digest (R90). -/
  | b2bFinal
  /-- `B2B_LONG`: the long hash of a window of IN (R104). -/
  | b2bLong
  /-- `A2ID_HASH`: the Argon2id hash (R152). -/
  | a2idHash
deriving DecidableEq, Repr

end Sys2Proof
end

