-- ==== Sys2Proof/Word.lean ====
section
/-! DEFINITION. The word types of the core (spec/00_scope.md R7): bytes, 32-bit registers, 64-bit words, all unsigned
and wrapping. -/

namespace Sys2Proof

/-- A byte of IN, OUT, `buf` or `H0BUF` (R8). -/
abbrev Byte := BitVec 8

/-- The contents of a control or status register (R20). -/
abbrev Word32 := BitVec 32

/-- A `u64`: a chaining word, a message word, a word of a block (R5, R7). -/
abbrev Word := BitVec 64

end Sys2Proof
end

