-- ==== Sys2Proof/Decode.lean ====
section
/-! DEFINITION. The command format of spec/30_encoding.md: fields (R60), decoder (R61), opcode map (R62), and the
encoder written from the same table. -/

namespace Sys2Proof

/-- R60: `OP = w[7:0]`. -/
def opField (w : Word32) : BitVec 8 := w.extractLsb' 0 8

/-- R60: `IMM = w[15:8]`. -/
def immField (w : Word32) : BitVec 8 := w.extractLsb' 8 8

/-- R60: `RSV = w[31:16]`. -/
def rsvField (w : Word32) : BitVec 16 := w.extractLsb' 16 16

/-- Why a word is no command: the checks of R61, in its order. Each is `Err(CMD_ILLEGAL)` to the host. -/
inductive DecodeReject
  /-- check (1): `RSV != 0` -/
  | reservedNonzero
  /-- check (2): `OP` is not one of the five opcodes -/
  | opcodeUnassigned
  /-- check (3): `OP` is not `0x01` and `IMM != 0` -/
  | immediateNonzero
deriving DecidableEq, Repr

/-- R61 check (3) for the four commands without an operand. -/
def withoutImm (w : Word32) (i : Instr) : Except DecodeReject Instr :=
  if immField w = 0 then .ok i else .error .immediateNonzero

/-- R61, R62: the decoder, total on the `2^32` words. -/
def decode (w : Word32) : Except DecodeReject Instr :=
  if rsvField w ≠ 0 then .error .reservedNonzero
  else match (opField w).toNat with
    | 0x01 => .ok (.b2bInit (immField w).toNat)
    | 0x02 => withoutImm w .b2bUpdate
    | 0x03 => withoutImm w .b2bFinal
    | 0x04 => withoutImm w .b2bLong
    | 0x10 => withoutImm w .a2idHash
    | _    => .error .opcodeUnassigned

/-- R62: the opcode of a command. -/
def opcode : Instr → BitVec 8
  | .b2bInit _ => 0x01
  | .b2bUpdate => 0x02
  | .b2bFinal  => 0x03
  | .b2bLong   => 0x04
  | .a2idHash  => 0x10

/-- R60: the IMM field of a command: the digest length for `B2B_INIT`, zero in every other. -/
def immediate : Instr → BitVec 8
  | .b2bInit n => BitVec.ofNat 8 n
  | .b2bUpdate => 0
  | .b2bFinal  => 0
  | .b2bLong   => 0
  | .a2idHash  => 0

/-- R60, R67: the word of a command, the three fields side by side, RSV at the top. -/
def encode (i : Instr) : Word32 :=
  ((0 : BitVec 16) ++ immediate i) ++ opcode i

/-- The command word whose bits the table numbers as `w`: every command is one 32-bit word (R60, R66), so the bits above
`nbits` are zero and the word is the number itself. -/
def tableWord (nbits w : Nat) : Word32 :=
  BitVec.ofNat 32 (w % 2 ^ nbits)

/-- What the decoder reads from the table's word. -/
def decodeTableWord (nbits w : Nat) : Option Instr :=
  (decode (tableWord nbits w)).toOption

end Sys2Proof
end

