-- ==== Sys2Proof/Config.lean ====
section
/-! DEFINITION. The implementation parameters of spec/00_scope.md R6: "Each is a named parameter the model takes as an
argument". They are plain data; Machine.State carries the ones of the machine at hand, so that a statement about every
state is a statement about every choice of them (assumption log 1). -/

namespace Sys2Proof

/-- R6 `H0_MEM_SOURCE`: which memory figure enters the seed digest (R114, 90_conflicts.md C5). -/
inductive H0MemSource
  /-- the rounded `memory_blocks` -/
  | derived
  /-- the M_COST register as the host wrote it -/
  | requested
deriving DecidableEq, Repr

/-- The parameters of R6. -/
structure Config where
  /-- `IN_BYTES` -/
  inBytes     : Nat
  /-- `OUT_BYTES` -/
  outBytes    : Nat
  /-- `CAP_BLOCKS` -/
  capBlocks   : Nat
  /-- `MAX_OUTLEN` -/
  maxOutlen   : Nat
  /-- `MAX_PWDLEN` -/
  maxPwdlen   : Nat
  /-- `MAX_SALTLEN` -/
  maxSaltlen  : Nat
  /-- `MAX_TIME` -/
  maxTime     : Nat
  /-- `MAX_MEM` -/
  maxMem      : Nat
  /-- `MAX_LANES` -/
  maxLanes    : Nat
  /-- `H0_MEM_SOURCE` -/
  h0MemSource : H0MemSource
deriving DecidableEq, Repr

/-- The column "constraint" of R6. -/
abbrev Config.wf (c : Config) : Prop :=
  (c.maxPwdlen + c.maxSaltlen ≤ c.inBytes ∧ c.inBytes < 2 ^ 32) ∧
  (c.maxOutlen ≤ c.outBytes ∧ 64 ≤ c.outBytes ∧ c.outBytes < 2 ^ 32) ∧
  (8 ≤ c.capBlocks ∧ c.capBlocks < 2 ^ 32) ∧
  4 ≤ c.maxOutlen ∧
  8 ≤ c.maxSaltlen ∧
  (1 ≤ c.maxTime ∧ c.maxTime ≤ 2 ^ 32 - 1) ∧
  (8 ≤ c.maxMem ∧ c.maxMem ≤ 2 ^ 32 - 1) ∧
  (1 ≤ c.maxLanes ∧ c.maxLanes ≤ 2 ^ 32 - 1)

/-- The column "suggested default" of R6, which "binds nothing": DESIGN CHOICE (assumption log 1) as the parameters of
`Machine.State.reset`. -/
def Config.suggested : Config where
  inBytes     := 4096
  outBytes    := 4096
  capBlocks   := 131072
  maxOutlen   := 4096
  maxPwdlen   := 2048
  maxSaltlen  := 2048
  maxTime     := 2 ^ 32 - 1
  maxMem      := 2 ^ 32 - 1
  maxLanes    := 2 ^ 24 - 1
  h0MemSource := .derived

end Sys2Proof
end

