-- ==== Sys2Proof/Machine/State.lean ====
section
/-! DEFINITION. The state of the core: spec/10_state.md, every piece it names, as plain data, and the state after
reset (R39). -/

namespace Sys2Proof.Machine

/-- A memory: (address, contents) pairs in canonical form (`Memory.wf`, Machine/Ops.lean); an address not listed reads
as the space's zero. With bytes as contents its entries are `Host.Cell`s. -/
abbrev Memory (α : Type) := List (Nat × α)

/-- A block: 128 words `X[0] .. X[127]` (R5, R8). -/
abbrev Block := Vector Word 128

/-- The all-zero block. -/
abbrev Block.zero : Block := Vector.replicate 128 0

/-- The BLAKE2b unit's data registers: R10 to R15. -/
structure B2bUnit where
  /-- R10: the chaining value -/
  h      : Vector Word 8
  /-- R11: the low half of the byte counter -/
  t0     : Word
  /-- R11: the high half -/
  t1     : Word
  /-- R12: `f[0]` -/
  f0     : Word
  /-- R12: `f[1]`, the flag no command sets -/
  f1     : Word
  /-- R13: the input buffer -/
  buf    : Vector Byte 128
  /-- R13: the number of valid bytes in `buf` -/
  buflen : BitVec 8
  /-- R14: the digest length of the hash in progress -/
  outlen : BitVec 7
  /-- R15: a hash is in progress -/
  active : Bool
deriving DecidableEq, Repr

/-- R91: the cleared unit, which is also its reset state (R39). -/
def B2bUnit.cleared : B2bUnit where
  h      := Vector.replicate 8 0
  t0     := 0
  t1     := 0
  f0     := 0
  f1     := 0
  buf    := Vector.replicate 128 0
  buflen := 0
  outlen := 0
  active := false

/-- The stored bits of the REG space (R20). The hard-wired registers VERSION, TYPE and CAPBLKS (R29) have no storage, nor
have the hard-wired zero bits of STATUS, ERR and CTRL (R22, R23, R24). -/
structure Regs where
  /-- R21: the last command word written -/
  cmd     : Word32
  /-- R22: bit 0 DONE, bit 1 FAIL, bit 2 B2B_ACTIVE -/
  status  : BitVec 3
  /-- R23: the code of the last command's error kind -/
  err     : BitVec 5
  /-- R24: OUT_PRESENT -/
  ctrl    : BitVec 1
  /-- R25 -/
  tCost   : Word32
  /-- R25 -/
  mCost   : Word32
  /-- R25 -/
  lanes   : Word32
  /-- R26 -/
  outlen  : Word32
  /-- R26 -/
  pwdlen  : Word32
  /-- R26 -/
  saltlen : Word32
  /-- R27 -/
  srcOff  : Word32
  /-- R27 -/
  srcLen  : Word32
  /-- R28 -/
  memblks : Word32
  /-- R28 -/
  seglen  : Word32
  /-- R28 -/
  lanelen : Word32
  /-- R30 -/
  outcnt  : Word32
deriving DecidableEq, Repr

/-- R20, column "reset". -/
def Regs.reset : Regs :=
  ⟨0, 0, 0, 0, 0, 0, 0, 0, 0, 0, 0, 0, 0, 0, 0, 0⟩

/-- R36: the position descriptor. -/
structure Position where
  /-- the pass, `0 .. t-1` -/
  pass  : Word32
  /-- the lane, `0 .. p-1` -/
  lane  : Word32
  /-- the slice, `0 .. 3` -/
  slice : BitVec 2
  /-- the block within the segment -/
  index : Word32
deriving DecidableEq, Repr

/-- The Argon2id engine: its block registers (R35), its position descriptor (R36) and the working memory (R34). -/
structure Engine where
  /-- R35 `R` -/
  blockR : Block
  /-- R35 `Z` -/
  blockZ : Block
  /-- R35 `ADDR` -/
  addr   : Block
  /-- R35 `INP` -/
  inp    : Block
  /-- R35 `ZERO` -/
  zeroB  : Block
  /-- R35 `C` -/
  blockC : Block
  /-- R35 `H0BUF` -/
  h0buf  : Vector Byte 72
  /-- R36 -/
  pos    : Position
  /-- R34: WM, by block index; a block not listed is the zero block -/
  wm     : Memory Block
deriving DecidableEq, Repr

/-- R39: the engine after reset. WM after reset is unspecified; R34: "a model may take them as zero" (DESIGN CHOICE,
assumption log 2). -/
def Engine.cleared : Engine where
  blockR := Block.zero
  blockZ := Block.zero
  addr   := Block.zero
  inp    := Block.zero
  zeroB  := Block.zero
  blockC := Block.zero
  h0buf  := Vector.replicate 72 0
  pos    := ⟨0, 0, 0, 0⟩
  wm     := []

/-- One access of the host (20_memory.md R44, 30_encoding.md R68). Register indices and byte offsets are numbers: the
spec gives every index and offset a behaviour (R31, R44). -/
inductive Access
  /-- write a 32-bit register; a write to CMD (index 0) runs a command (R21) -/
  | writeReg (index : Nat) (value : Word32)
  /-- read a 32-bit register -/
  | readReg (index : Nat)
  /-- write a byte of IN -/
  | writeIn (offset : Nat) (value : Byte)
  /-- read a byte of OUT -/
  | readOut (offset : Nat)
  /-- the reset event (R185) -/
  | reset
deriving DecidableEq, Repr

/-- What a read gives the host. -/
inductive Reply
  /-- a register read -/
  | word (value : Word32)
  /-- a read of a byte of OUT -/
  | byte (value : Byte)
deriving DecidableEq, Repr

/-- The model's own account of the host (no state of the core; assumption log 3). -/
structure HostPort where
  /-- the accesses the host has still to make, the next one first -/
  pending : List Access
  /-- what the host has read so far, the newest first -/
  replies : List Reply
deriving DecidableEq, Repr

/-- R161: the error kinds; their codes are `ErrKind.code` (Machine/Flags.lean). -/
inductive ErrKind
  /-- R164 -/
  | outputAbsent
  /-- R165 -/
  | outputTooShort
  /-- R166 -/
  | outputTooLong
  /-- R167 -/
  | pwdTooLong
  /-- R168 -/
  | saltTooShort
  /-- R169 -/
  | saltTooLong
  /-- R170 -/
  | timeTooSmall
  /-- R171 -/
  | timeTooLarge
  /-- R172 -/
  | memoryTooLittle
  /-- R173 -/
  | memoryTooMuch
  /-- R174 -/
  | lanesTooFew
  /-- R175 -/
  | lanesTooMany
  /-- R176 -/
  | memoryAllocation
  /-- R178 -/
  | cmdIllegal
  /-- R179 -/
  | b2bState
  /-- R180 -/
  | b2bOutlen
  /-- R181 -/
  | srcRange
deriving DecidableEq, Repr

/-- No constructor: the core has no fault. Every failure is a code in ERR after which the core goes on (60_exceptions.md
R160, R163), so every command ends in a next state (assumption log 9). -/
inductive Fault
deriving DecidableEq, Repr

/-- The one refusal the host's interface asks for. -/
inductive Refusal
  /-- An instruction without a meaning, raised by an arm of `exec` only; no arm raises it, every command has its meaning.
  Safe: a machine that stops proves nothing false. -/
  | notModelled (mnemonic : String)
deriving DecidableEq, Repr

/-- The machine. -/
structure State where
  /-- the implementation parameters (R6); no access and no command changes them -/
  cfg  : Config
  /-- the REG space (R20) -/
  reg  : Regs
  /-- the BLAKE2b unit (R10 to R15) -/
  b2b  : B2bUnit
  /-- the Argon2id engine and the working memory (R34 to R36) -/
  eng  : Engine
  /-- IN (R33), by byte offset -/
  inb  : Memory Byte
  /-- OUT (R33), by byte offset -/
  outb : Memory Byte
  /-- the host -/
  host : HostPort
deriving DecidableEq, Repr

/-- R39: the core with parameters `c` right after reset, no access pending. -/
def State.resetWith (c : Config) : State where
  cfg  := c
  reg  := Regs.reset
  b2b  := B2bUnit.cleared
  eng  := Engine.cleared
  inb  := []
  outb := []
  host := ⟨[], []⟩

/-- R39 for the suggested parameters of R6 (assumption log 1). -/
def State.reset : State := State.resetWith Config.suggested

end Sys2Proof.Machine
end

