-- ==== Sys2Proof/Machine/Flags.lean ====
section
/-! DEFINITION. Error codes (spec/60_exceptions.md R161) and the STATUS bits (spec/10_state.md R22). There are no
arithmetic flags in this hardware (R18). -/

namespace Sys2Proof.Machine

/-- R161: the code of an error kind. -/
def ErrKind.code : ErrKind → BitVec 5
  | .outputAbsent     => 1
  | .outputTooShort   => 2
  | .outputTooLong    => 3
  | .pwdTooLong       => 4
  | .saltTooShort     => 5
  | .saltTooLong      => 6
  | .timeTooSmall     => 7
  | .timeTooLarge     => 8
  | .memoryTooLittle  => 9
  | .memoryTooMuch    => 10
  | .lanesTooFew      => 11
  | .lanesTooMany     => 12
  | .memoryAllocation => 13
  | .cmdIllegal       => 16
  | .b2bState         => 17
  | .b2bOutlen        => 18
  | .srcRange         => 19

/-- R163: the STATUS bits a completing command writes: DONE, FAIL when the code is not zero, B2B_ACTIVE. -/
def statusBits (code : BitVec 5) (active : Bool) : BitVec 3 :=
  1 ||| (if code ≠ 0 then 2 else 0) ||| (if active then 4 else 0)

/-- R22: bit 0 of STATUS. -/
def statusDone (st : BitVec 3) : Bool := st.getLsbD 0

/-- R22: bit 1 of STATUS. -/
def statusFail (st : BitVec 3) : Bool := st.getLsbD 1

/-- R22: bit 2 of STATUS. -/
def statusB2bActive (st : BitVec 3) : Bool := st.getLsbD 2

/-- R24: CTRL bit 0. -/
def outPresent (s : State) : Bool := s.reg.ctrl.getLsbD 0

end Sys2Proof.Machine
end

