-- ==== Sys2Proof/Machine/Ops.lean ====
section
/-! DEFINITION. The named operations every command is built from: memories in canonical form, the REG space
(spec/10_state.md R20 to R32), results to OUT (spec/20_memory.md R47), command completion and errors
(spec/60_exceptions.md R163), counted loops. -/

namespace Sys2Proof.Machine

/-! ## Memories -/

/-- The canonical form of a memory whose unlisted addresses read as `d`: addresses strictly rising, no entry equal to
`d`. -/
abbrev Memory.wf {α : Type} [DecidableEq α] (d : α) (m : Memory α) : Prop :=
  (m.map Prod.fst).Pairwise (· < ·) ∧ ∀ c ∈ m, c.2 ≠ d

/-- What address `a` holds. -/
def Memory.read {α : Type} (d : α) : Memory α → Nat → α
  | [], _          => d
  | (b, y) :: m, a => if a = b then y else Memory.read d m a

/-- Address `a` gets the contents `x`. Writing `d` removes the entry. -/
def Memory.write {α : Type} [DecidableEq α] (d : α) : Memory α → Nat → α → Memory α
  | [], a, x => if x = d then [] else [(a, x)]
  | (b, y) :: m, a, x =>
    if a < b then (if x = d then (b, y) :: m else (a, x) :: (b, y) :: m)
    else if a = b then (if x = d then m else (a, x) :: m)
    else (b, y) :: Memory.write d m a x

/-- The addresses `lo .. hi - 1` get the contents unlisted addresses have (zero in every space of this hardware): the
writes of R47, R113 and R151 that zero a range, made at once. -/
def Memory.zeroRange {α : Type} (lo hi : Nat) (m : Memory α) : Memory α :=
  m.filter fun c => !(decide (lo ≤ c.1) && decide (c.1 < hi))

/-- `x :: xs` to the addresses `a, a+1, ...` in increasing order. -/
def Memory.writeList {α : Type} [DecidableEq α] (d : α) : List α → Nat → Memory α → Memory α
  | [], _, m      => m
  | x :: xs, a, m => Memory.writeList d xs (a + 1) (Memory.write d m a x)

/-- R9 `IN[a]`. -/
def readIn (s : State) (a : Nat) : Byte := Memory.read 0 s.inb a

/-- R9 `OUT[a]`, as the host reads it. -/
def readOut (s : State) (a : Nat) : Byte := Memory.read 0 s.outb a

/-- R9 `WM[i]`. -/
def Engine.readWM (e : Engine) (i : Nat) : Block := Memory.read Block.zero e.wm i

/-- R9 `WM[i] <- X`. -/
def Engine.writeWM (e : Engine) (i : Nat) (x : Block) : Engine :=
  { e with wm := Memory.write Block.zero e.wm i x }

/-- R47: the result `D` of `n` bytes to `OUT[0 .. n-1]`, zero to `OUT[n .. OUT_BYTES-1]`, `OUTCNT <- n`. -/
def writeResult (n : Nat) (D : List Byte) (s : State) : State :=
  { s with
    outb := Memory.writeList 0 (D.take n) 0 (Memory.zeroRange 0 s.cfg.outBytes s.outb)
    reg  := { s.reg with outcnt := BitVec.ofNat 32 n } }

/-- R151: `IN[i] <- 0 for i in 0 .. IN_BYTES - 1`. -/
def zeroIn (s : State) : State :=
  { s with inb := Memory.zeroRange 0 s.cfg.inBytes s.inb }

/-- A run of a byte register file from offset `off` gets the bytes `bs`; nothing beyond its end is written. -/
def writeRun {n : Nat} : List Byte → Nat → Vector Byte n → Vector Byte n
  | [], _, v        => v
  | b :: bs, off, v => writeRun bs (off + 1) (v.setIfInBounds off b)

/-! ## Counted loops -/

/-- R9 `for i in a .. b`: `n` turns, `i = a, a+1, ...` in that order. -/
def forUp {σ : Type} (body : Nat → σ → σ) : (n a : Nat) → σ → σ
  | 0, _, s     => s
  | n + 1, a, s => forUp body n (a + 1) (body a s)

/-! ## The REG space -/

/-- R29: the version constant. -/
def versionConst : Word32 := 0x13

/-- R29: the "id" type tag. -/
def typeTag : Word32 := 2

/-- R20, R31: the value the host reads at a register index; an unmapped index reads zero. -/
def readReg (s : State) (index : Nat) : Word32 :=
  match index with
  | 0x00 => s.reg.cmd
  | 0x01 => s.reg.status.setWidth 32
  | 0x02 => s.reg.err.setWidth 32
  | 0x03 => s.reg.ctrl.setWidth 32
  | 0x04 => s.reg.tCost
  | 0x05 => s.reg.mCost
  | 0x06 => s.reg.lanes
  | 0x07 => s.reg.outlen
  | 0x08 => s.reg.pwdlen
  | 0x09 => s.reg.saltlen
  | 0x0A => s.reg.srcOff
  | 0x0B => s.reg.srcLen
  | 0x0C => s.reg.memblks
  | 0x0D => s.reg.seglen
  | 0x0E => s.reg.lanelen
  | 0x0F => versionConst
  | 0x10 => typeTag
  | 0x11 => BitVec.ofNat 32 s.cfg.capBlocks
  | 0x12 => s.reg.outcnt
  | _    => 0

/-- R20, R24, R31, R32: a host write of `v` at a register index. Read-only and unmapped indices ignore it. For CMD this
is the first half of R21, the register's new value; Machine/Command.lean runs the word. -/
def writeReg (s : State) (index : Nat) (v : Word32) : State :=
  match index with
  | 0x00 => { s with reg := { s.reg with cmd := v } }
  | 0x03 => { s with reg := { s.reg with ctrl := v.setWidth 1 } }
  | 0x04 => { s with reg := { s.reg with tCost := v } }
  | 0x05 => { s with reg := { s.reg with mCost := v } }
  | 0x06 => { s with reg := { s.reg with lanes := v } }
  | 0x07 => { s with reg := { s.reg with outlen := v } }
  | 0x08 => { s with reg := { s.reg with pwdlen := v } }
  | 0x09 => { s with reg := { s.reg with saltlen := v } }
  | 0x0A => { s with reg := { s.reg with srcOff := v } }
  | 0x0B => { s with reg := { s.reg with srcLen := v } }
  | _    => s

/-! ## Command completion -/

/-- R163: the last act of every command: ERR, then STATUS. -/
def finish (code : BitVec 5) (s : State) : State :=
  { s with reg := { s.reg with err := code, status := statusBits code s.b2b.active } }

/-- R163: a command that succeeded. -/
def complete (s : State) : Host.Outcome State Fault Refusal :=
  .next (finish 0 s)

/-- R163 `raise Err(KIND)`: the command ends here; `s` already holds what the rule says accompanies the error (R177).
Nothing is saved, no mode changes and no control is transferred. -/
def raiseErr (k : ErrKind) (s : State) : Host.Outcome State Fault Refusal :=
  .next (finish k.code s)

end Sys2Proof.Machine
end

