-- ==== Sys2Proof/Machine/Operands.lean ====
section
/-! DEFINITION. The operand forms of spec/30_encoding.md R63, R64: the one immediate, the registers, the windows of IN
(spec/20_memory.md R45). -/

namespace Sys2Proof.Machine

/-- R45: the bytes `IN[off .. off+len-1]` in increasing offset order. -/
def window (s : State) (off len : Nat) : List Byte :=
  (List.range' off len).map (readIn s)

/-- R27: the source window passes the end of IN; the sum is unbounded. -/
def srcPastEnd (s : State) : Bool :=
  decide (s.cfg.inBytes < s.reg.srcOff.toNat + s.reg.srcLen.toNat)

/-- R27: the message bytes of `B2B_UPDATE` and `B2B_LONG`. -/
def srcBytes (s : State) : List Byte :=
  window s s.reg.srcOff.toNat s.reg.srcLen.toNat

/-- R45: the password `IN[0 .. PWDLEN-1]`. -/
def password (s : State) : List Byte :=
  window s 0 s.reg.pwdlen.toNat

/-- R45: the salt `IN[PWDLEN .. PWDLEN+SALTLEN-1]`. -/
def salt (s : State) : List Byte :=
  window s s.reg.pwdlen.toNat s.reg.saltlen.toNat

/-- R63, R86: a digest length of `B2B_INIT` outside 1 to 64. -/
def badDigestLen (n : Nat) : Bool := decide (n = 0 ∨ n > 64)

/-- R104: an OUTLEN that `B2B_LONG` refuses. -/
def badLongLen (s : State) : Bool :=
  decide (s.reg.outlen.toNat = 0 ∨ s.reg.outlen.toNat > s.cfg.outBytes)

end Sys2Proof.Machine
end

