-- ==== Sys2Proof/Machine/Words.lean ====
section
/-! DEFINITION. Notation of spec/00_scope.md R7, R8 and the byte order of spec/20_memory.md R40 to R43. -/

namespace Sys2Proof.Machine

/-- R7 `rotr64(w, n)` for `0 < n < 64`. -/
def rotr64 (w : Word) (n : Nat) : Word := (w >>> n) ||| (w <<< (64 - n))

/-- The number a byte string stands for, least significant byte first (R8). -/
def leNat : List Byte → Nat
  | []      => 0
  | b :: bs => b.toNat + 256 * leNat bs

/-- The `n`-byte string of a number, least significant byte first (R8). -/
def leBytes : Nat → Nat → List Byte
  | 0, _     => []
  | n + 1, v => BitVec.ofNat 8 v :: leBytes n (v / 256)

/-- R8 `le32(v)` of a number, `v mod 2^32`. -/
def le32 (v : Nat) : List Byte := leBytes 4 v

/-- R8 `le64(v)`. -/
def le64 (w : Word) : List Byte := leBytes 8 w.toNat

/-- R8 `load64le(b, off)`. -/
def load64le (b : List Byte) (off : Nat) : Word :=
  BitVec.ofNat 64 (leNat ((b.drop off).take 8))

/-- R8 `X ^ Y` on blocks. -/
def Block.xor (x y : Block) : Block := Vector.ofFn fun k => x[k] ^^^ y[k]

/-- R8, R43 `bytes(X)`. -/
def Block.bytes (x : Block) : List Byte := x.toList.flatMap le64

/-- R8, R43 `words(b)`: `X[k] = load64le(b, 8k)`. -/
def Block.words (b : List Byte) : Block := Vector.ofFn fun k => load64le b (8 * k.val)

/-- Four words of a working vector, in the order `a, b, c, d` of R82 and R126. -/
structure Quad where
  a : Word
  b : Word
  c : Word
  d : Word
deriving DecidableEq, Repr

/-- A vector of sixteen words `v[0] .. v[15]` (R16, R127), used inside one computation. -/
structure Vec16 where
  v0  : Word
  v1  : Word
  v2  : Word
  v3  : Word
  v4  : Word
  v5  : Word
  v6  : Word
  v7  : Word
  v8  : Word
  v9  : Word
  v10 : Word
  v11 : Word
  v12 : Word
  v13 : Word
  v14 : Word
  v15 : Word
deriving DecidableEq, Repr

/-- The sixteen words in order. -/
def Vec16.toVector (v : Vec16) : Vector Word 16 :=
  #v[v.v0, v.v1, v.v2, v.v3, v.v4, v.v5, v.v6, v.v7, v.v8, v.v9, v.v10, v.v11, v.v12, v.v13, v.v14, v.v15]

/-- Word `k`. -/
def Vec16.get (v : Vec16) (k : Fin 16) : Word := v.toVector[k]

/-- The vector with the given words. -/
def Vec16.ofFn (f : Fin 16 → Word) : Vec16 :=
  ⟨f 0, f 1, f 2, f 3, f 4, f 5, f 6, f 7, f 8, f 9, f 10, f 11, f 12, f 13, f 14, f 15⟩

/-- The order of the eight applications that R83 and R127 share: `g 0 .. g 3` on the columns (0,4,8,12), (1,5,9,13),
(2,6,10,14), (3,7,11,15), then `g 4 .. g 7` on the diagonals (0,5,10,15), (1,6,11,12), (2,7,8,13), (3,4,9,14). Each group
of four touches disjoint words. -/
def Vec16.columnsThenDiagonals (g : Fin 8 → Quad → Quad) (v : Vec16) : Vec16 :=
  let q0 := g 0 ⟨v.v0, v.v4, v.v8,  v.v12⟩
  let q1 := g 1 ⟨v.v1, v.v5, v.v9,  v.v13⟩
  let q2 := g 2 ⟨v.v2, v.v6, v.v10, v.v14⟩
  let q3 := g 3 ⟨v.v3, v.v7, v.v11, v.v15⟩
  let d0 := g 4 ⟨q0.a, q1.b, q2.c, q3.d⟩
  let d1 := g 5 ⟨q1.a, q2.b, q3.c, q0.d⟩
  let d2 := g 6 ⟨q2.a, q3.b, q0.c, q1.d⟩
  let d3 := g 7 ⟨q3.a, q0.b, q1.c, q2.d⟩
  ⟨d0.a, d1.a, d2.a, d3.a,
   d3.b, d0.b, d1.b, d2.b,
   d2.c, d3.c, d0.c, d1.c,
   d1.d, d2.d, d3.d, d0.d⟩

end Sys2Proof.Machine
end

