-- ==== Sys2Proof/Machine/Blake2b.lean ====
section
/-! DEFINITION. The BLAKE2b unit and its three commands: spec/40_blake2b.md. -/

namespace Sys2Proof.Machine

/-! ## Constants -/

/-- R80. -/
def blakeIV : Vector Word 8 :=
  #v[0x6A09E667F3BCC908, 0xBB67AE8584CAA73B, 0x3C6EF372FE94F82B, 0xA54FF53A5F1D36F1,
     0x510E527FADE682D1, 0x9B05688C2B3E6C1F, 0x1F83D9ABFB41BD6B, 0x5BE0CD19137E2179]

/-- R81. -/
def blakeSigma : Vector (Vector (Fin 16) 16) 10 :=
  #v[#v[ 0,  1,  2,  3,  4,  5,  6,  7,  8,  9, 10, 11, 12, 13, 14, 15],
     #v[14, 10,  4,  8,  9, 15, 13,  6,  1, 12,  0,  2, 11,  7,  5,  3],
     #v[11,  8, 12,  0,  5,  2, 15, 13, 10, 14,  3,  6,  7,  1,  9,  4],
     #v[ 7,  9,  3,  1, 13, 12, 11, 14,  2,  6,  5, 10,  4,  0, 15,  8],
     #v[ 9,  0,  5,  7,  2,  4, 10, 15, 14,  1, 11, 12,  6,  8,  3, 13],
     #v[ 2, 12,  6, 10,  0, 11,  8,  3,  4, 13,  7,  5, 15, 14,  1,  9],
     #v[12,  5,  1, 15, 14, 13,  4, 10,  0,  7,  6,  3,  9,  2,  8, 11],
     #v[13, 11,  7, 14, 12,  1,  3,  9,  5,  0, 15,  4,  8,  6,  2, 10],
     #v[ 6, 15, 14,  9, 11,  3,  0,  8, 12,  2, 13,  7,  1,  4, 10,  5],
     #v[10,  2,  8,  4,  7,  6,  1,  5, 15, 11,  9, 14,  3, 12, 13,  0]]

/-- R81: round `r` uses row `r mod 10`. -/
def sigmaRow (r : Nat) : Vector (Fin 16) 16 :=
  blakeSigma[r % 10]'(Nat.mod_lt r (by decide))

/-! ## Internal operations -/

/-- R82: the mixing function on the words `v[a], v[b], v[c], v[d]` with message words `x, y`. -/
def mixG (x y : Word) (q : Quad) : Quad :=
  let a := q.a + q.b + x
  let d := rotr64 (q.d ^^^ a) 32
  let c := q.c + d
  let b := rotr64 (q.b ^^^ c) 24
  let a := a + b + y
  let d := rotr64 (d ^^^ a) 16
  let c := c + d
  let b := rotr64 (b ^^^ c) 63
  ⟨a, b, c, d⟩

/-- R83: round `r` with message words `m`. Application `k` takes `m[s[2k]]` and `m[s[2k+1]]`. -/
def blakeRound (m : Vector Word 16) (r : Nat) (v : Vec16) : Vec16 :=
  let s := sigmaRow r
  v.columnsThenDiagonals fun k => mixG m[s[2 * k.val]] m[s[2 * k.val + 1]]

/-- R84: the working vector at the start of a compression. -/
def workInit (h : Vector Word 8) (t0 t1 f0 f1 : Word) : Vec16 where
  v0  := h[0]
  v1  := h[1]
  v2  := h[2]
  v3  := h[3]
  v4  := h[4]
  v5  := h[5]
  v6  := h[6]
  v7  := h[7]
  v8  := blakeIV[0]
  v9  := blakeIV[1]
  v10 := blakeIV[2]
  v11 := blakeIV[3]
  v12 := blakeIV[4] ^^^ t0
  v13 := blakeIV[5] ^^^ t1
  v14 := blakeIV[6] ^^^ f0
  v15 := blakeIV[7] ^^^ f1

/-- R41: the message words of a 128-byte block. -/
def messageWords (blk : List Byte) : Vector Word 16 :=
  Vector.ofFn fun i => load64le blk (8 * i.val)

/-- R85: the twelve rounds. -/
def twelveRounds (m : Vector Word 16) (v : Vec16) : Vec16 :=
  forUp (blakeRound m) 12 0 v

/-- R85: the fold `h[i] ^ v[i] ^ v[i+8]`. -/
def foldIntoChain (h : Vector Word 8) (v : Vec16) : Vector Word 8 :=
  let w := v.toVector
  Vector.ofFn fun i => h[i] ^^^ w[i.val] ^^^ w[i.val + 8]

/-- R85 `F(blk)`: one compression. It writes `h` only. -/
def compress (blk : List Byte) (u : B2bUnit) : B2bUnit :=
  { u with
    h := foldIntoChain u.h (twelveRounds (messageWords blk) (workInit u.h u.t0 u.t1 u.f0 u.f1)) }

/-- R87: the byte counter advances by `n`; the test is made on the new `t[0]`. -/
def addCount (n : Nat) (u : B2bUnit) : B2bUnit :=
  let t0 := u.t0 + BitVec.ofNat 64 n
  { u with
    t0 := t0
    t1 := if t0.toNat < n then u.t1 + 1 else u.t1 }

/-- R88: the full buffer is compressed when a further byte arrives. -/
def flushFull (u : B2bUnit) : B2bUnit :=
  if u.buflen = 128 then { compress u.buf.toList (addCount 128 u) with buflen := 0 } else u

/-- R88: one message byte. -/
def absorbByte (u : B2bUnit) (x : Byte) : B2bUnit :=
  let u := flushFull u
  { u with
    buf    := u.buf.setIfInBounds u.buflen.toNat x
    buflen := u.buflen + 1 }

/-- R88 `absorb(bytes)`. -/
def absorb (bytes : List Byte) (u : B2bUnit) : B2bUnit :=
  bytes.foldl absorbByte u

/-- R92, the loop: whole blocks straight from the input while more than 128 bytes remain. The first argument bounds the
number of turns. -/
def absorbWhole : Nat → List Byte → B2bUnit → List Byte × B2bUnit
  | 0, s, u => (s, u)
  | n + 1, s, u =>
    if s.length > 128 then absorbWhole n (s.drop 128) (compress (s.take 128) (addCount 128 u))
    else (s, u)

/-- R92: the bytes `s` to `buf[buflen ..]`. -/
def appendToBuf (s : List Byte) (u : B2bUnit) : B2bUnit :=
  { u with
    buf    := writeRun s u.buflen.toNat u.buf
    buflen := u.buflen + BitVec.ofNat 8 s.length }

/-- R92: the block form of R88, the second of the spec's two descriptions of absorbing. The commands use R88's; that the
two agree on everything a rule reads is a statement about the model. -/
def absorbBlockForm (s : List Byte) (u : B2bUnit) : B2bUnit :=
  let fill := 128 - u.buflen.toNat
  if s.length = 0 then u
  else if s.length > fill then
    let u := { u with buf := writeRun (s.take fill) u.buflen.toNat u.buf }
    let u := { compress u.buf.toList (addCount 128 u) with buflen := 0 }
    let (rest, u) := absorbWhole (s.length / 128) (s.drop fill) u
    appendToBuf rest u
  else appendToBuf s u

/-- R86: the unit after a successful `B2B_INIT n`. The parameter word is `0x01010000 ^ n`. -/
def initUnit (n : Nat) : B2bUnit where
  h      := blakeIV.set 0 (blakeIV[0] ^^^ 0x0000000001010000 ^^^ BitVec.ofNat 64 n)
  t0     := 0
  t1     := 0
  f0     := 0
  f1     := 0
  buf    := Vector.replicate 128 0
  buflen := 0
  outlen := BitVec.ofNat 7 n
  active := true

/-- R90: the buffer padded with zero bytes from `buflen` on. -/
def padBuf (u : B2bUnit) : B2bUnit :=
  { u with buf := Vector.ofFn fun i => if i.val < u.buflen.toNat then u.buf[i] else 0 }

/-- R90, up to the last compression: count the buffered bytes, set the flag, pad, compress. -/
def lastCompression (u : B2bUnit) : B2bUnit :=
  let u := addCount u.buflen.toNat u
  let u := { u with f0 := 0xFFFFFFFFFFFFFFFF }
  let u := padBuf u
  compress u.buf.toList u

/-- R42: the chaining value as 64 bytes. -/
def chainBytes (h : Vector Word 8) : List Byte := h.toList.flatMap le64

/-- R90, R42: the digest `final` delivers. -/
def digest (u : B2bUnit) : List Byte :=
  (chainBytes (lastCompression u).h).take u.outlen.toNat

/-- R93 `BLAKE2b(n, msg)`: init, absorb, final. -/
def blake2b (n : Nat) (msg : List Byte) : List Byte :=
  digest (absorb msg (initUnit n))

/-- R91 "clear the unit". -/
def clearUnit (s : State) : State := { s with b2b := B2bUnit.cleared }

/-! ## Commands -/

/-- R86 `B2B_INIT n`. Accepted whatever `active` is. -/
def execB2bInit (n : Nat) (s : State) : Host.Outcome State Fault Refusal :=
  if badDigestLen n then raiseErr .b2bOutlen s
  else complete { s with b2b := initUnit n }

/-- R89 `B2B_UPDATE`. -/
def execB2bUpdate (s : State) : Host.Outcome State Fault Refusal :=
  if !s.b2b.active then raiseErr .b2bState s
  else if srcPastEnd s then raiseErr .srcRange s
  else complete { s with b2b := absorb (srcBytes s) s.b2b }

/-- R90 `B2B_FINAL`. -/
def execB2bFinal (s : State) : Host.Outcome State Fault Refusal :=
  if !s.b2b.active then raiseErr .b2bState s
  else complete (clearUnit (writeResult s.b2b.outlen.toNat (digest s.b2b) s))

end Sys2Proof.Machine
end

