-- ==== Sys2Proof/Machine/LongHash.lean ====
section
/-! DEFINITION. The long hash and `B2B_LONG`: spec/41_blake2b_long.md. -/

namespace Sys2Proof.Machine

/-- R102, from the first digest on: `v` is the previous full digest, `rem` the bytes still to be produced. The first
argument bounds the turns of the loop. -/
def longTail : Nat → Nat → List Byte → List Byte
  | 0, rem, v => blake2b rem v
  | k + 1, rem, v =>
    if rem > 64 then
      let v := blake2b 64 v
      v.take 32 ++ longTail k (rem - 32) v
    else blake2b rem v

/-- R100 to R102 `Hlong(n, msg)`. -/
def hlong (n : Nat) (msg : List Byte) : List Byte :=
  let pre := le32 n ++ msg
  if n ≤ 64 then blake2b n pre
  else
    let v := blake2b 64 pre
    v.take 32 ++ longTail (n / 32) (n - 32) v

/-- R104 `B2B_LONG`. -/
def execB2bLong (s : State) : Host.Outcome State Fault Refusal :=
  if s.b2b.active then raiseErr .b2bState s
  else if badLongLen s then raiseErr .b2bOutlen s
  else if srcPastEnd s then raiseErr .srcRange s
  else
    let n := s.reg.outlen.toNat
    complete (clearUnit (writeResult n (hlong n (srcBytes s)) s))

end Sys2Proof.Machine
end

