-- ==== Sys2Proof/Machine/Mixing.lean ====
section
/-! DEFINITION. The block-mixing engine: spec/43_argon2_block_mixing.md. -/

namespace Sys2Proof.Machine

/-- R125: the low 32 bits of a word, as a word. -/
def low32 (x : Word) : Word := (x.setWidth 32).setWidth 64

/-- R125 `fBlaMka(x, y)`. -/
def fBlaMka (x y : Word) : Word := x + y + 2 * (low32 x * low32 y)

/-- R126 `GB(a, b, c, d)`. -/
def mixGB (q : Quad) : Quad :=
  let a := fBlaMka q.a q.b
  let d := rotr64 (q.d ^^^ a) 32
  let c := fBlaMka q.c d
  let b := rotr64 (q.b ^^^ c) 24
  let a := fBlaMka a b
  let d := rotr64 (d ^^^ a) 16
  let c := fBlaMka c d
  let b := rotr64 (b ^^^ c) 63
  ⟨a, b, c, d⟩

/-- R127 `P`. -/
def permP (w : Vec16) : Vec16 := w.columnsThenDiagonals fun _ => mixGB

/-- R128: the index in the block of word `k` of group `i` of the first pass. -/
def rowIndex (i : Fin 8) (k : Fin 16) : Fin 128 := ⟨16 * i.val + k.val, by omega⟩

/-- R129: the same for the second pass: `w[2j + e] = R[2i + 16j + e]`. -/
def columnIndex (i : Fin 8) (k : Fin 16) : Fin 128 :=
  ⟨2 * i.val + 16 * (k.val / 2) + k.val % 2, by omega⟩

/-- The eight groups of sixteen words that `index` picks from a block, each permuted by `P`. The groups are disjoint, so
their order does not matter (R128, R129, R158). -/
def permuteGroups (index : Fin 8 → Fin 16 → Fin 128) (r : Block) : Vector Vec16 8 :=
  Vector.ofFn fun i => permP (Vec16.ofFn fun k => r[index i k])

/-- R128: the first mixing pass; word `k` of the block is word `k mod 16` of group `k / 16`. -/
def firstPass (r : Block) : Block :=
  let g := permuteGroups rowIndex r
  Vector.ofFn fun k => (g[k.val / 16]).get ⟨k.val % 16, by omega⟩

/-- R129: the second mixing pass; word `16j + 2i + e` of the block is word `2j + e` of group `i`. -/
def secondPass (r : Block) : Block :=
  let g := permuteGroups columnIndex r
  Vector.ofFn fun k => (g[k.val % 16 / 2]).get ⟨2 * (k.val / 16) + k.val % 2, by omega⟩

/-- R131 `Pmix`: the two mixing passes. -/
def mixPasses (r : Block) : Block := secondPass (firstPass r)

/-- R131 on contents: `prev` and `ref` are the two blocks, `old` the old contents of the target when `with_xor = 1`. It
leaves `R` and `Z` in the engine's block registers and gives the new block `Z ^ R`. -/
def produceBlock (prev ref : Block) (old : Option Block) (e : Engine) : Block × Engine :=
  let r := ref.xor prev
  let z := match old with
    | none   => r
    | some x => r.xor x
  let r := mixPasses r
  (z.xor r, { e with blockR := r, blockZ := z })

/-- R131 `fill_block(prev, ref, cur, with_xor)` on blocks of WM: all reads come before the one write (R51). -/
def fillBlock (prev ref cur : Nat) (withXor : Bool) (e : Engine) : Engine :=
  let old := if withXor then some (e.readWM cur) else none
  let (x, e) := produceBlock (e.readWM prev) (e.readWM ref) old e
  e.writeWM cur x

/-- R134: the input block at the start of a data-independent segment. -/
def inputBlock (pass lane slice memBlocks passes : Nat) : Block :=
  ((((((Block.zero.set 0 (BitVec.ofNat 64 pass)).set 1 (BitVec.ofNat 64 lane)).set 2
    (BitVec.ofNat 64 slice)).set 3 (BitVec.ofNat 64 memBlocks)).set 4 (BitVec.ofNat 64 passes)).set 5
    (typeTag.setWidth 64)).set 6 0

/-- R133 `next_addresses`. -/
def nextAddresses (e : Engine) : Engine :=
  let e := { e with inp := e.inp.set 6 (e.inp[6] + 1) }
  let (x, e) := produceBlock e.zeroB e.inp none e
  let e := { e with addr := x }
  let (x, e) := produceBlock e.zeroB e.addr none e
  { e with addr := x }

end Sys2Proof.Machine
end

