-- ==== Sys2Proof/Machine/Argon2.lean ====
section
/-! DEFINITION. The Argon2id engine and `A2ID_HASH`: spec/42_argon2_setup.md and spec/44_argon2_fill_finalize.md. -/

namespace Sys2Proof.Machine

/-! ## Validation and derivation -/

/-- R110: the twelve checks in their order: the condition that fails, the kind it raises. The product `8 * p` is exact. -/
def checks (s : State) : List (Bool × ErrKind) :=
  let T := s.reg.outlen.toNat
  let PL := s.reg.pwdlen.toNat
  let SL := s.reg.saltlen.toNat
  let t := s.reg.tCost.toNat
  let m := s.reg.mCost.toNat
  let p := s.reg.lanes.toNat
  [ (!outPresent s,                     .outputAbsent),
    (decide (T < 4),                    .outputTooShort),
    (decide (T > s.cfg.maxOutlen),      .outputTooLong),
    (decide (PL > s.cfg.maxPwdlen),     .pwdTooLong),
    (decide (SL < 8),                   .saltTooShort),
    (decide (SL > s.cfg.maxSaltlen),    .saltTooLong),
    (decide (t < 1),                    .timeTooSmall),
    (decide (t > s.cfg.maxTime),        .timeTooLarge),
    (decide (m < 8 * p),                .memoryTooLittle),
    (decide (m > s.cfg.maxMem),         .memoryTooMuch),
    (decide (p < 1),                    .lanesTooFew),
    (decide (p > s.cfg.maxLanes),       .lanesTooMany) ]

/-- R110 `validate`: the kind of the first check that fails. -/
def validate (s : State) : Option ErrKind :=
  ((checks s).find? Prod.fst).map Prod.snd

/-- R112: `segment_length` from the memory cost and the lanes. -/
def segmentLength (m p : Nat) : Nat := max m (2 * 4 * p) / (4 * p)

/-- R112: `memory_blocks`, rounded down to a multiple of `4p`. -/
def memoryBlocks (m p : Nat) : Nat := segmentLength m p * 4 * p

/-- R112: `lane_length`. -/
def laneLength (m p : Nat) : Nat := 4 * segmentLength m p

/-- R112 `derive`: the three registers, from M_COST and LANES. -/
def derive (s : State) : State :=
  let m := s.reg.mCost.toNat
  let p := s.reg.lanes.toNat
  { s with reg := { s.reg with
      memblks := BitVec.ofNat 32 (memoryBlocks m p)
      seglen  := BitVec.ofNat 32 (segmentLength m p)
      lanelen := BitVec.ofNat 32 (laneLength m p) } }

/-- The sizes a fill works with: `t`, `p` and the three derived sizes. -/
structure Shape where
  passes    : Nat
  lanes     : Nat
  memBlocks : Nat
  segLen    : Nat
  laneLen   : Nat
deriving DecidableEq, Repr

/-- The sizes as the registers hold them after `derive`. -/
def shapeOf (s : State) : Shape where
  passes    := s.reg.tCost.toNat
  lanes     := s.reg.lanes.toNat
  memBlocks := s.reg.memblks.toNat
  segLen    := s.reg.seglen.toNat
  laneLen   := s.reg.lanelen.toNat

/-! ## Allocation and the first blocks -/

/-- R113 `allocate`. -/
def allocate (memBlocks : Nat) (e : Engine) : Engine :=
  { e with wm := Memory.zeroRange 0 memBlocks e.wm }

/-- R114: the message of the seed digest. -/
def seedMessage (s : State) : List Byte :=
  let memFigure := match s.cfg.h0MemSource with
    | .derived   => s.reg.memblks
    | .requested => s.reg.mCost
  le32 s.reg.lanes.toNat ++ le32 s.reg.outlen.toNat ++ le32 memFigure.toNat ++ le32 s.reg.tCost.toNat
    ++ le32 versionConst.toNat ++ le32 typeTag.toNat
    ++ le32 s.reg.pwdlen.toNat ++ password s ++ le32 s.reg.saltlen.toNat ++ salt s
    ++ le32 0 ++ le32 0

/-- R114: `H0BUF[0 .. 63] <- H0`. -/
def seed (s : State) (e : Engine) : Engine :=
  { e with h0buf := writeRun (blake2b 64 (seedMessage s)) 0 e.h0buf }

/-- R115: one of the first two blocks of lane `l`, its index in the lane in `H0BUF[64 .. 67]`. -/
def firstBlock (sh : Shape) (l counter : Nat) (e : Engine) : Engine :=
  let e := { e with h0buf := writeRun (le32 counter) 64 e.h0buf }
  e.writeWM (l * sh.laneLen + counter) (Block.words (hlong 1024 e.h0buf.toList))

/-- R115: both of them. -/
def firstBlocks (sh : Shape) (l : Nat) (e : Engine) : Engine :=
  let e := { e with h0buf := writeRun (le32 0) 64 e.h0buf }
  let e := { e with h0buf := writeRun (le32 l) 68 e.h0buf }
  firstBlock sh l 1 (firstBlock sh l 0 e)

/-- R114, R115: seed digest, the first two blocks of every lane, `H0BUF` cleared. -/
def seedLanes (s : State) (sh : Shape) (e : Engine) : Engine :=
  let e := forUp (firstBlocks sh) sh.lanes 0 (seed s e)
  { e with h0buf := Vector.replicate 72 0 }

/-! ## Addressing -/

/-- R140: the addressing mode of a segment. -/
def independent (pass slice : Nat) : Bool := decide (pass = 0 ∧ slice < 2)

/-- R46, R148: the index in WM of the block at a position. -/
def curIndex (sh : Shape) (lane slice index : Nat) : Nat :=
  lane * sh.laneLen + (slice * sh.segLen + index)

/-- R146: the previous block; it wraps to the end of the lane. -/
def prevIndex (sh : Shape) (lane slice index : Nat) : Nat :=
  if slice * sh.segLen + index = 0 then lane * sh.laneLen + sh.laneLen - 1
  else curIndex sh lane slice index - 1

/-- R141: the window size, in 32-bit arithmetic that wraps. -/
def areaSize (sh : Shape) (pass slice index : Nat) (sameLane : Bool) : Word32 :=
  let seg := BitVec.ofNat 32 sh.segLen
  let ll  := BitVec.ofNat 32 sh.laneLen
  let i   := BitVec.ofNat 32 index
  let done := BitVec.ofNat 32 (slice * sh.segLen)
  if pass = 0 then
    if slice = 0 then i - 1
    else if sameLane then done + i - 1
    else if index = 0 then done - 1 else done
  else if sameLane then ll - seg + i - 1
  else if index = 0 then ll - seg - 1 else ll - seg

/-- R143: `x`. -/
def mapX (j1 : Word32) : Word := (j1.setWidth 64 * j1.setWidth 64) >>> 32

/-- R143: `y`. -/
def mapY (area j1 : Word32) : Word := (area.setWidth 64 * mapX j1) >>> 32

/-- R143: `rel`, the relative position inside the window. -/
def relPosition (area j1 : Word32) : Word := (area - 1).setWidth 64 - mapY area j1

/-- R144: where the window starts. -/
def windowStart (sh : Shape) (pass slice : Nat) : Nat :=
  if pass ≠ 0 then (if slice = 3 then 0 else (slice + 1) * sh.segLen) else 0

/-- R141, R143, R144 `index_alpha`: the position inside the reference lane. -/
def indexAlpha (sh : Shape) (pass slice index : Nat) (sameLane : Bool) (j1 : Word32) : Nat :=
  (windowStart sh pass slice + (relPosition (areaSize sh pass slice index sameLane) j1).toNat) % sh.laneLen

/-- R147: `J1`. -/
def lowHalf (rand : Word) : Word32 := rand.extractLsb' 0 32

/-- R147: `J2`. -/
def highHalf (rand : Word) : Word32 := rand.extractLsb' 32 32

/-- R147: the reference lane. -/
def refLane (sh : Shape) (pass slice lane : Nat) (rand : Word) : Nat :=
  if pass = 0 ∧ slice = 0 then lane else (highHalf rand).toNat % sh.lanes

/-- R148: the index in WM of the reference block. -/
def refIndex (sh : Shape) (pass slice lane index : Nat) (rand : Word) : Nat :=
  let rl := refLane sh pass slice lane rand
  rl * sh.laneLen + indexAlpha sh pass slice index (decide (rl = lane)) (lowHalf rand)

/-! ## Filling -/

/-- R147: the pseudo-random value of a block, and the engine with its address block regenerated where it is due. -/
def nextRand (sh : Shape) (pass lane slice index : Nat) (e : Engine) : Word × Engine :=
  if independent pass slice then
    let e := if index % 128 = 0 then nextAddresses e else e
    (e.addr[index % 128]'(Nat.mod_lt index (by decide)), e)
  else ((e.readWM (prevIndex sh lane slice index))[0], e)

/-- R36: the position descriptor of the block being produced. -/
def setPosition (pass lane slice index : Nat) (e : Engine) : Engine :=
  { e with pos := ⟨BitVec.ofNat 32 pass, BitVec.ofNat 32 lane, BitVec.ofNat 2 slice, BitVec.ofNat 32 index⟩ }

/-- R148: one turn of the segment loop. -/
def fillOne (sh : Shape) (pass slice lane index : Nat) (e : Engine) : Engine :=
  let e := setPosition pass lane slice index e
  let (rand, e) := nextRand sh pass lane slice index e
  fillBlock (prevIndex sh lane slice index) (refIndex sh pass slice lane index rand)
    (curIndex sh lane slice index) (decide (pass ≠ 0)) e

/-- R148: the first index of a segment. -/
def firstIndex (pass slice : Nat) : Nat := if pass = 0 ∧ slice = 0 then 2 else 0

/-- R148, R134: what precedes the loop: `INP` and `ZERO` in a data-independent segment, and the address block generated
once in pass 0, slice 0. -/
def startSegment (sh : Shape) (pass slice lane : Nat) (e : Engine) : Engine :=
  let e := if independent pass slice then
      { e with inp := inputBlock pass lane slice sh.memBlocks sh.passes, zeroB := Block.zero }
    else e
  if pass = 0 ∧ slice = 0 ∧ independent pass slice then nextAddresses e else e

/-- R148 `fill_segment(pass, lane, slice)`. -/
def fillSegment (sh : Shape) (pass slice lane : Nat) (e : Engine) : Engine :=
  forUp (fillOne sh pass slice lane) (sh.segLen - firstIndex pass slice) (firstIndex pass slice)
    (startSegment sh pass slice lane e)

/-- R149: the lanes of a slice, lane 0 first (R55). -/
def fillSlice (sh : Shape) (pass slice : Nat) (e : Engine) : Engine :=
  forUp (fillSegment sh pass slice) sh.lanes 0 e

/-- R149: the four slices of a pass. -/
def fillPass (sh : Shape) (pass : Nat) (e : Engine) : Engine :=
  forUp (fillSlice sh pass) 4 0 e

/-- R149 `fill_memory`. -/
def fillMemory (sh : Shape) (e : Engine) : Engine :=
  forUp (fillPass sh) sh.passes 0 e

/-! ## Finalization and zeroization -/

/-- R150: the last block of lane `l`. -/
def lastOfLane (sh : Shape) (e : Engine) (l : Nat) : Block :=
  e.readWM (l * sh.laneLen + sh.laneLen - 1)

/-- R150: `C`, the XOR of the last block of every lane. -/
def finalBlock (sh : Shape) (e : Engine) : Engine :=
  { e with blockC :=
      forUp (fun l (c : Block) => c.xor (lastOfLane sh e l)) (sh.lanes - 1) 1 (lastOfLane sh e 0) }

/-- R152, phases allocate to finalize: the engine after the fill, with the final block in `C`. `s` gives the operands, as
the registers and IN hold them after `derive`. -/
def runEngine (s : State) : Engine :=
  let sh := shapeOf s
  finalBlock sh (fillMemory sh (seedLanes s sh (allocate sh.memBlocks s.eng)))

/-- R150 `finalize`: the engine as the fill left it, and `Hlong(T, bytes(C))` to OUT. -/
def finalizeHash (s : State) : State :=
  let e := runEngine s
  let T := s.reg.outlen.toNat
  writeResult T (hlong T e.blockC.bytes) { s with eng := e }

/-- R151: the engine part of `zeroize`: the first `blocks` blocks of WM (none where no allocation took place) and every
engine register. -/
def Engine.zeroize (blocks : Nat) (e : Engine) : Engine :=
  { Engine.cleared with wm := Memory.zeroRange 0 blocks e.wm }

/-- R151 `zeroize`. -/
def zeroize (blocks : Nat) (s : State) : State :=
  zeroIn (clearUnit { s with eng := s.eng.zeroize blocks })

/-! ## The command -/

/-- R111: the request is larger than the installed working memory. `s` is the state after `derive`. -/
def overCapacity (s : State) : Bool := decide (s.reg.memblks.toNat > s.cfg.capBlocks)

/-- R152 `A2ID_HASH`. -/
def execA2idHash (s : State) : Host.Outcome State Fault Refusal :=
  if s.b2b.active then raiseErr .b2bState s
  else match validate s with
    | some k => raiseErr k (zeroize 0 s)
    | none =>
      let s := derive s
      if overCapacity s then raiseErr .memoryAllocation (zeroize 0 s)
      else complete (zeroize s.reg.memblks.toNat (finalizeHash s))

end Sys2Proof.Machine
end

