-- ==== Sys2Proof/Machine/Dispatch.lean ====
section
/-! DEFINITION. One arm per command (spec/30_encoding.md R62). -/

namespace Sys2Proof.Machine

def exec (i : Instr) (s : State) : Host.Outcome State Fault Refusal :=
  match i with
  | .b2bInit n => Sys2Proof.Machine.execB2bInit n s
  | .b2bUpdate => Sys2Proof.Machine.execB2bUpdate s
  | .b2bFinal => Sys2Proof.Machine.execB2bFinal s
  | .b2bLong => Sys2Proof.Machine.execB2bLong s
  | .a2idHash => Sys2Proof.Machine.execA2idHash s

end Sys2Proof.Machine
end

