-- ==== Sys2Proof/Machine/Command.lean ====
section
/-! DEFINITION. The host's accesses (spec/20_memory.md R44, R48): what each does to the core and what it gives back, and
the write to CMD that runs a command (spec/10_state.md R21, spec/30_encoding.md R61). -/

namespace Sys2Proof.Machine

/-- The register index of CMD (R20). -/
def cmdIndex : Nat := 0x00

/-- R61, R65: run a word that CMD already holds: a word that is no command raises `Err(CMD_ILLEGAL)`. -/
def runWord (w : Word32) (s : State) : Host.Outcome State Fault Refusal :=
  match decode w with
  | .ok i    => exec i s
  | .error _ => raiseErr .cmdIllegal s

/-- The value a read gave goes to the host. -/
def answer (r : Reply) (s : State) : State :=
  { s with host := { s.host with replies := r :: s.host.replies } }

/-- R44: a host write to an IN offset; one at or beyond `IN_BYTES` is ignored. -/
def writeInByte (off : Nat) (b : Byte) (s : State) : State :=
  if off < s.cfg.inBytes then { s with inb := Memory.write 0 s.inb off b } else s

/-- R44: a host read of an OUT offset; one at or beyond `OUT_BYTES` gives zero. -/
def readOutByte (off : Nat) (s : State) : Byte :=
  if off < s.cfg.outBytes then readOut s off else 0

/-- R185: the reset event. The parameters are the hardware's and the host goes on with what it has still to do. -/
def resetEvent (s : State) : State :=
  { State.resetWith s.cfg with host := s.host }

/-- One access of the host. -/
def serve (a : Access) (s : State) : Host.Outcome State Fault Refusal :=
  match a with
  | .writeReg i v => if i = cmdIndex then runWord v (writeReg s i v) else .next (writeReg s i v)
  | .readReg i    => .next (answer (.word (readReg s i)) s)
  | .writeIn o b  => .next (writeInByte o b s)
  | .readOut o    => .next (answer (.byte (readOutByte o s)) s)
  | .reset        => .next (resetEvent s)

/-- The next pending access is served; with none pending the core does nothing (R48, R185). -/
def serveNext (s : State) : Host.Outcome State Fault Refusal :=
  match s.host.pending with
  | []        => .next s
  | a :: rest => serve a { s with host := { s.host with pending := rest } }

/-- The host's next access becomes a write of `w` to CMD; what was pending follows it. -/
def pushCommand (w : Word32) (s : State) : State :=
  { s with host := { s.host with pending := .writeReg cmdIndex w :: s.host.pending } }

end Sys2Proof.Machine
end

