-- ==== Sys2Proof/Machine/Step.lean ====
section
/-! DEFINITION. One step of the machine: one access of the host, the whole of the command it runs included
(spec/20_memory.md R48, R50). -/

namespace Sys2Proof.Machine

/-- One host access (assumption log 3). -/
def step (s : State) : Host.Outcome State Fault Refusal := serveNext s

/-- `s` with a write of the table's word to CMD as the host's next access, so that the next step runs it: the core
fetches nothing (R17), the host gives it each command (assumption log 4). -/
def State.withFetchWord (s : State) (nbits w : Nat) : State := pushCommand (tableWord nbits w) s

end Sys2Proof.Machine
end

