-- ==== Sys2Proof/Safety.lean ====
section
/-! DEFINITION. What holds of the core between any two host accesses, and what "no secret is left" means, in the terms
the claims use. -/

namespace Sys2Proof.Machine

/-- The machine goes on: its step answers a next state. -/
def State.GoesOn (s : State) : Prop := ∃ t, step s = .next t

/-- A hash in progress on the unit: the digest length is one `B2B_INIT` accepts (R14), the buffer holds at most 128 bytes
(R13), no flag is set (R12), only whole blocks have been counted (R88). -/
structure B2bUnit.InProgress (u : B2bUnit) : Prop where
  outlenPos : 1 ≤ u.outlen.toNat
  outlenMax : u.outlen.toNat ≤ 64
  buflenMax : u.buflen.toNat ≤ 128
  f0Clear   : u.f0 = 0
  f1Clear   : u.f1 = 0
  counted   : u.t0.toNat % 128 = 0

/-- What holds between host accesses. -/
structure State.Inv (s : State) : Prop where
  /-- R6: the parameters meet their constraints -/
  cfgWf    : s.cfg.wf
  /-- IN is in canonical form -/
  inWf     : Memory.wf 0 s.inb
  /-- R33: IN has `IN_BYTES` bytes -/
  inRange  : ∀ c ∈ s.inb, c.1 < s.cfg.inBytes
  /-- OUT is in canonical form -/
  outWf    : Memory.wf 0 s.outb
  /-- R47: OUT holds exactly one result, `OUTCNT` bytes long -/
  outTail  : ∀ c ∈ s.outb, c.1 < s.reg.outcnt.toNat
  /-- R30, R33: the result fits in OUT -/
  outFits  : s.reg.outcnt.toNat ≤ s.cfg.outBytes
  /-- R35, R39, R151: outside a command the engine's registers hold zero; R34, R151: so does every block of WM a command has
  used. That the blocks no command has used are zero too is the model's choice of WM after reset: DESIGN CHOICE (assumption
  log 2), which R34 permits and R39 leaves unspecified -/
  engine   : s.eng = Engine.cleared
  /-- R15, R91: with no hash in progress the unit is cleared -/
  unitIdle : s.b2b.active = false → s.b2b = B2bUnit.cleared
  /-- with a hash in progress the unit's registers are in their ranges -/
  unitBusy : s.b2b.active = true → s.b2b.InProgress
  /-- R22: FAIL is set exactly when ERR is not zero -/
  fail     : statusFail s.reg.status = decide (s.reg.err ≠ 0)
  /-- R22: B2B_ACTIVE is the flag `active` -/
  busyBit  : statusB2bActive s.reg.status = s.b2b.active
  /-- R22: DONE is clear only before the first command has completed -/
  done     : statusDone s.reg.status = false → s.reg.err = 0 ∧ s.b2b.active = false
  /-- R161: ERR holds zero or the code of an error kind -/
  errCode  : s.reg.err = 0 ∨ ∃ k : ErrKind, s.reg.err = k.code
  /-- R28: `LANELEN = 4 * SEGLEN` -/
  laneLen  : s.reg.lanelen.toNat = 4 * s.reg.seglen.toNat
  /-- R28: `MEMBLKS = SEGLEN * LANES * 4` for the LANES of the command that wrote the three -/
  memBlks  : ∃ p : Nat, s.reg.memblks.toNat = s.reg.seglen.toNat * p * 4

/-- R151, R152: nothing of the password, the salt or a function of them is left in the memory the engine controlled: IN
reads zero, the unit and the engine's registers are cleared, the first `blocks` blocks of WM are zero. -/
structure State.NoSecretLeft (blocks : Nat) (s : State) : Prop where
  inZero : ∀ a, a < s.cfg.inBytes → readIn s a = 0
  unit   : s.b2b = B2bUnit.cleared
  regs   : { s.eng with wm := [] } = Engine.cleared
  wmZero : ∀ j, j < blocks → s.eng.readWM j = Block.zero

end Sys2Proof.Machine
end

