-- ==== Sys2Proof/WellFormed.lean ====
section
/-! DEFINITION. Which terms of `Instr` are commands the format of spec/30_encoding.md R60 can hold. -/

namespace Sys2Proof

/-- R60, R63, R67: the operand of `B2B_INIT` is an unsigned 8-bit field, `0 <= n <= 255` (a length outside 1 to 64 is a
well-formed command whose execution raises an error). The other commands have no operand. -/
abbrev Instr.wf : Instr → Prop
  | .b2bInit n => n ≤ 255
  | .b2bUpdate => True
  | .b2bFinal => True
  | .b2bLong => True
  | .a2idHash => True

end Sys2Proof
end

