-- ==== Sys2Proof/Certificates/Slice0/Obligations.lean ====
section
/-! DEFINITION. The statements for the provers, from the numbered rules of spec/. The first part gives the words the
statements use; they are written from the rules, not from the meanings. -/

open Sys2Proof Sys2Proof.Machine

namespace Sys2Proof.Claims

/-! ## The words of the statements -/

/-- R163: `s` with a command's outcome reported, and nothing else changed: the code in ERR, and STATUS as the number
1 (DONE), plus 2 when the code is not zero (FAIL), plus 4 while a hash is in progress (B2B_ACTIVE). -/
def reported (code : BitVec 5) (s : State) : State :=
  { s with reg := { s.reg with
      err := code
      status := BitVec.ofNat 3 (1 + (if code = 0 then 0 else 2) + (if s.b2b.active = true then 4 else 0)) } }

/-- R47: OUT and OUTCNT of `t` hold the `n` result bytes `D`, the rest of OUT is zero, and what lies beyond OUT is as in
`s`. -/
def OutHolds (n : Nat) (D : List Byte) (s t : State) : Prop :=
  t.reg.outcnt = BitVec.ofNat 32 n ∧
  ∀ a, readOut t a = if a < n then D.getD a 0 else if a < s.cfg.outBytes then 0 else readOut s a

/-- R91, R39: the cleared unit, register by register. -/
def UnitIsZero (u : B2bUnit) : Prop :=
  (∀ i : Fin 8, u.h[i] = 0) ∧ u.t0 = 0 ∧ u.t1 = 0 ∧ u.f0 = 0 ∧ u.f1 = 0 ∧
  (∀ i : Fin 128, u.buf[i] = 0) ∧ u.buflen = 0 ∧ u.outlen = 0 ∧ u.active = false

/-- R39, R151: the engine's registers (all but WM), register by register. -/
def EngineRegsAreZero (e : Engine) : Prop :=
  (∀ k : Fin 128, e.blockR[k] = 0 ∧ e.blockZ[k] = 0 ∧ e.addr[k] = 0 ∧ e.inp[k] = 0 ∧ e.zeroB[k] = 0 ∧ e.blockC[k] = 0) ∧
  (∀ i : Fin 72, e.h0buf[i] = 0) ∧
  e.pos.pass = 0 ∧ e.pos.lane = 0 ∧ e.pos.slice = 0 ∧ e.pos.index = 0

/-- R27: the source window lies within IN (the sum is unbounded). -/
def SrcInRange (s : State) : Prop := s.reg.srcOff.toNat + s.reg.srcLen.toNat ≤ s.cfg.inBytes

/-- R27, R45: the message bytes of the source window, by increasing offset. -/
def sourceBytes (s : State) : List Byte :=
  (List.range s.reg.srcLen.toNat).map fun k => readIn s (s.reg.srcOff.toNat + k)

/-- R90: the unit just before the last compression: the counter advanced by the bytes in the buffer, the flag set, the
buffer padded with zero bytes. -/
def beforeLast (u : B2bUnit) : B2bUnit :=
  { addCount u.buflen.toNat u with
    f0  := 0xFFFFFFFFFFFFFFFF
    buf := Vector.ofFn fun i => if i.val < u.buflen.toNat then u.buf[i] else 0 }

/-- R90, R42: `le64(h[0]) ‖ ... ‖ le64(h[7])` after the last compression, truncated to `outlen` bytes. -/
def finalBytes (u : B2bUnit) : List Byte :=
  let h := (compress (beforeLast u).buf.toList (beforeLast u)).h
  (le64 h[0] ++ le64 h[1] ++ le64 h[2] ++ le64 h[3] ++ le64 h[4] ++ le64 h[5] ++ le64 h[6] ++ le64 h[7]).take
    u.outlen.toNat

/-- R102, R103: the digests `V` of the long case: the first is of the prefixed message, each later one of the digest
before it. -/
def chainDigest (pre : List Byte) : Nat → List Byte
  | 0     => blake2b 64 pre
  | j + 1 => blake2b 64 (chainDigest pre j)

/-- R110, R161: the code of the first of the twelve checks that fails. -/
def firstFailure (s : State) : Option (BitVec 5) :=
  if s.reg.ctrl = 0 then some 1
  else if s.reg.outlen.toNat < 4 then some 2
  else if s.cfg.maxOutlen < s.reg.outlen.toNat then some 3
  else if s.cfg.maxPwdlen < s.reg.pwdlen.toNat then some 4
  else if s.reg.saltlen.toNat < 8 then some 5
  else if s.cfg.maxSaltlen < s.reg.saltlen.toNat then some 6
  else if s.reg.tCost.toNat < 1 then some 7
  else if s.cfg.maxTime < s.reg.tCost.toNat then some 8
  else if s.reg.mCost.toNat < 8 * s.reg.lanes.toNat then some 9
  else if s.cfg.maxMem < s.reg.mCost.toNat then some 10
  else if s.reg.lanes.toNat < 1 then some 11
  else if s.cfg.maxLanes < s.reg.lanes.toNat then some 12
  else none

/-- R112: `segment_length`, by the rule's own formula. -/
def segOf (s : State) : Nat :=
  max s.reg.mCost.toNat (2 * 4 * s.reg.lanes.toNat) / (4 * s.reg.lanes.toNat)

/-- R112: `memory_blocks`. -/
def blocksOf (s : State) : Nat := segOf s * 4 * s.reg.lanes.toNat

/-- R110, R111, R179: `A2ID_HASH` executes: no hash in progress, the twelve checks pass, the request fits. -/
structure Accepted (s : State) : Prop where
  idle  : s.b2b.active = false
  valid : firstFailure s = none
  fits  : blocksOf s ≤ s.cfg.capBlocks

/-- The sizes R112 derives from the operands. -/
def shape (s : State) : Shape where
  passes    := s.reg.tCost.toNat
  lanes     := s.reg.lanes.toNat
  memBlocks := blocksOf s
  segLen    := segOf s
  laneLen   := 4 * segOf s

/-- R112, R28: `s` with the three derived registers written. -/
def withSizes (s : State) : State :=
  { s with reg := { s.reg with
      memblks := BitVec.ofNat 32 (blocksOf s)
      seglen  := BitVec.ofNat 32 (segOf s)
      lanelen := BitVec.ofNat 32 (4 * segOf s) } }

/-- R45: the bytes `IN[off .. off+len-1]` by increasing offset. -/
def inWindow (s : State) (off len : Nat) : List Byte := (List.range len).map fun k => readIn s (off + k)

/-- R114: the memory figure that enters the seed digest. -/
def seedMemory (s : State) : Nat :=
  match s.cfg.h0MemSource with
  | .derived   => blocksOf s
  | .requested => s.reg.mCost.toNat

/-- R114: the message of the seed digest, field by field. -/
def seedInput (s : State) : List Byte :=
  le32 s.reg.lanes.toNat ++ le32 s.reg.outlen.toNat ++ le32 (seedMemory s) ++ le32 s.reg.tCost.toNat ++
  le32 0x13 ++ le32 2 ++
  le32 s.reg.pwdlen.toNat ++ inWindow s 0 s.reg.pwdlen.toNat ++
  le32 s.reg.saltlen.toNat ++ inWindow s s.reg.pwdlen.toNat s.reg.saltlen.toNat ++
  le32 0 ++ le32 0

/-- R115: the block with index `counter` (0 or 1) in lane `l`, from the seed digest. -/
def seedBlock (s : State) (l counter : Nat) : Block :=
  Block.words (hlong 1024 (blake2b 64 (seedInput s) ++ le32 counter ++ le32 l))

/-- R152: the phases allocate (R113), first blocks (R114, R115), fill (R149) and the XOR of the last blocks (R150), in
order. -/
def phases (s : State) : Engine :=
  finalBlock (shape s) (fillMemory (shape s) (seedLanes (withSizes s) (shape s) (allocate (blocksOf s) s.eng)))

/-- R150: the result bytes. -/
def hashBytes (s : State) : List Byte := hlong s.reg.outlen.toNat (phases s).blockC.bytes

/-- R112, R117: sizes that a request which passes validation can have. -/
structure ShapeOk (sh : Shape) : Prop where
  lanes  : 1 ≤ sh.lanes
  seg    : 2 ≤ sh.segLen
  lane   : sh.laneLen = 4 * sh.segLen
  blocks : sh.memBlocks = sh.lanes * sh.laneLen
  bound  : sh.memBlocks < 2 ^ 32

/-- R36, R148: a position at which the segment loop produces a block. -/
structure PositionOk (sh : Shape) (pass slice lane index : Nat) : Prop where
  sliceLt : slice < 4
  laneLt  : lane < sh.lanes
  indexLt : index < sh.segLen
  start   : pass = 0 → slice = 0 → 2 ≤ index

/-- R131 `Pmix(X) ^ X`: the new block made from `X = ref ^ prev` in the first pass. -/
def mixed (x : Block) : Block := (mixPasses x).xor x

/-- R148: the first index of a segment's loop. -/
def firstOf (pass slice : Nat) : Nat := if pass = 0 ∧ slice = 0 then 2 else 0

/-- R149: the segments (pass, slice, lane) of a fill, in their order. -/
def segments (sh : Shape) : List (Nat × Nat × Nat) :=
  (List.range sh.passes).flatMap fun pass =>
    (List.range 4).flatMap fun slice => (List.range sh.lanes).map fun lane => (pass, slice, lane)

/-- R146: the index in WM of the previous block. -/
def previousOf (sh : Shape) (lane slice index : Nat) : Nat :=
  let j := slice * sh.segLen + index
  lane * sh.laneLen + if j = 0 then sh.laneLen - 1 else j - 1

/-- R141, the table, on numbers (at a position of the loop nothing wraps). -/
def areaOf (sh : Shape) (pass slice index : Nat) (sameLane : Prop) [Decidable sameLane] : Nat :=
  if pass = 0 then
    if slice = 0 then index - 1
    else if sameLane then slice * sh.segLen + index - 1
    else if index = 0 then slice * sh.segLen - 1 else slice * sh.segLen
  else if sameLane then sh.laneLen - sh.segLen + index - 1
  else if index = 0 then sh.laneLen - sh.segLen - 1 else sh.laneLen - sh.segLen

/-- R147, R141, R143, R144: the index in WM of the reference block that the pseudo-random value selects. -/
def referenceOf (sh : Shape) (pass slice lane index rand : Nat) : Nat :=
  let j1 := rand % 2 ^ 32
  let j2 := rand / 2 ^ 32
  let refLane := if pass = 0 ∧ slice = 0 then lane else j2 % sh.lanes
  let area := areaOf sh pass slice index (refLane = lane)
  let rel := area - 1 - area * (j1 * j1 / 2 ^ 32) / 2 ^ 32
  let start := if pass = 0 ∨ slice = 3 then 0 else (slice + 1) * sh.segLen
  refLane * sh.laneLen + (start + rel) % sh.laneLen

/-- R147: the address block a turn of the loop works with. -/
def addressesOf (pass slice index : Nat) (e : Engine) : Block :=
  if pass = 0 ∧ slice < 2 ∧ index % 128 = 0 then (nextAddresses e).addr else e.addr

/-- R147: the pseudo-random value of a turn. -/
def randOf (sh : Shape) (pass slice lane index : Nat) (e : Engine) : Word :=
  if pass = 0 ∧ slice < 2 then (addressesOf pass slice index e)[(⟨index % 128, by omega⟩ : Fin 128)]
  else (e.readWM (previousOf sh lane slice index))[0]

/-- R82: `G(a, b, c, d; x, y)` on a vector of sixteen words, step by step. -/
def gAt (x y : Word) (a b c d : Fin 16) (v : Fin 16 → Word) : Fin 16 → Word :=
  let v := Function.update v a (v a + v b + x)
  let v := Function.update v d (rotr64 (v d ^^^ v a) 32)
  let v := Function.update v c (v c + v d)
  let v := Function.update v b (rotr64 (v b ^^^ v c) 24)
  let v := Function.update v a (v a + v b + y)
  let v := Function.update v d (rotr64 (v d ^^^ v a) 16)
  let v := Function.update v c (v c + v d)
  Function.update v b (rotr64 (v b ^^^ v c) 63)

/-- R126: `GB(a, b, c, d)`, step by step. -/
def gbAt (a b c d : Fin 16) (v : Fin 16 → Word) : Fin 16 → Word :=
  let v := Function.update v a (fBlaMka (v a) (v b))
  let v := Function.update v d (rotr64 (v d ^^^ v a) 32)
  let v := Function.update v c (fBlaMka (v c) (v d))
  let v := Function.update v b (rotr64 (v b ^^^ v c) 24)
  let v := Function.update v a (fBlaMka (v a) (v b))
  let v := Function.update v d (rotr64 (v d ^^^ v a) 16)
  let v := Function.update v c (fBlaMka (v c) (v d))
  Function.update v b (rotr64 (v b ^^^ v c) 63)

/-- R83, R127: the eight applications, one after another: application `i` of `g` at the columns, then at the diagonals. -/
def eightTimes (g : Fin 8 → Fin 16 → Fin 16 → Fin 16 → Fin 16 → (Fin 16 → Word) → Fin 16 → Word) (v : Fin 16 → Word) :
    Fin 16 → Word :=
  let v := g 3 3 7 11 15 (g 2 2 6 10 14 (g 1 1 5 9 13 (g 0 0 4 8 12 v)))
  g 7 3 4 9 14 (g 6 2 7 8 13 (g 5 1 6 11 12 (g 4 0 5 10 15 v)))

/-- R83: round `r` with message words `m`, `s = SIGMA[r mod 10]`. -/
def roundAt (m : Fin 16 → Word) (r : Nat) (v : Fin 16 → Word) : Fin 16 → Word :=
  let s : Vector (Fin 16) 16 := blakeSigma[(⟨r % 10, by omega⟩ : Fin 10)]
  eightTimes (fun i => gAt (m s[(⟨2 * i.val, by omega⟩ : Fin 16)]) (m s[(⟨2 * i.val + 1, by omega⟩ : Fin 16)])) v

/-- R84: the working vector at the start of a compression. -/
def workStart (u : B2bUnit) (k : Fin 16) : Word :=
  if h : k.val < 8 then u.h[k.val]
  else blakeIV[(⟨k.val - 8, by omega⟩ : Fin 8)] ^^^
    (if k = 12 then u.t0 else if k = 13 then u.t1 else if k = 14 then u.f0 else if k = 15 then u.f1 else 0)

/-- R85: the working vector after the twelve rounds. -/
def workEnd (blk : List Byte) (u : B2bUnit) : Fin 16 → Word :=
  (List.range 12).foldl (fun v r => roundAt (fun k => load64le blk (8 * k.val)) r v) (workStart u)

/-- The registers a host access or a command other than `A2ID_HASH` never changes: parameters, operand registers, CMD
(R25 to R27). -/
structure OperandsKept (s t : State) : Prop where
  cfg     : t.cfg = s.cfg
  host    : t.host = s.host
  cmd     : t.reg.cmd = s.reg.cmd
  ctrl    : t.reg.ctrl = s.reg.ctrl
  tCost   : t.reg.tCost = s.reg.tCost
  mCost   : t.reg.mCost = s.reg.mCost
  lanes   : t.reg.lanes = s.reg.lanes
  outlen  : t.reg.outlen = s.reg.outlen
  pwdlen  : t.reg.pwdlen = s.reg.pwdlen
  saltlen : t.reg.saltlen = s.reg.saltlen
  srcOff  : t.reg.srcOff = s.reg.srcOff
  srcLen  : t.reg.srcLen = s.reg.srcLen

/-- `s` as it stands once its next access has been taken from the host. -/
def taken (rest : List Access) (s : State) : State := { s with host := { s.host with pending := rest } }

/-- A read has given the host `r`. -/
def answered (r : Reply) (s : State) : State := { s with host := { s.host with replies := r :: s.host.replies } }

end Sys2Proof.Claims

open Sys2Proof.Claims

/-! ## Decoding -/

/-- R60 to R63, R67: decoding the word of a well-formed command gives the command back, the operand at every value the
field holds. -/
def Obligations.DecodeOfEncodeIsIdentity : Prop :=
  ∀ i : Instr, i.wf → decode (encode i) = .ok i

/-- R61, R62: a word that decodes is the word of the command it decodes to, and that command is well-formed; so no two
words share a command. -/
def Obligations.EncodeOfDecodeIsIdentity : Prop :=
  ∀ (w : Word32) (i : Instr), decode w = .ok i → encode i = w ∧ i.wf

/-- R62, the table of masks: `w & mask == match` selects the command. -/
def Obligations.DecodeFollowsMaskAndMatch : Prop :=
  ∀ w : Word32,
    (∀ n : Nat, decode w = .ok (.b2bInit n) ↔ (w &&& 0xFFFF00FF = 0x00000001 ∧ n = w.toNat / 256 % 256)) ∧
    (decode w = .ok .b2bUpdate ↔ w &&& 0xFFFFFFFF = 0x00000002) ∧
    (decode w = .ok .b2bFinal ↔ w &&& 0xFFFFFFFF = 0x00000003) ∧
    (decode w = .ok .b2bLong ↔ w &&& 0xFFFFFFFF = 0x00000004) ∧
    (decode w = .ok .a2idHash ↔ w &&& 0xFFFFFFFF = 0x00000010)

/-- Words of 95_test_vectors.md E1 decode as its column says. -/
def Obligations.SpecWordsDecodeAsListed : Prop :=
  decode 0x00004001 = .ok (.b2bInit 64) ∧ decode 0x0000FF01 = .ok (.b2bInit 255) ∧ decode 0x00000001 = .ok (.b2bInit 0) ∧
  decode 0x00000002 = .ok .b2bUpdate ∧ decode 0x00000003 = .ok .b2bFinal ∧ decode 0x00000004 = .ok .b2bLong ∧
  decode 0x00000010 = .ok .a2idHash ∧
  decode 0x00010001 = .error .reservedNonzero ∧ decode 0x00000102 = .error .immediateNonzero ∧
  decode 0x00000000 = .error .opcodeUnassigned ∧ decode 0x00000011 = .error .opcodeUnassigned

/-! ## The host's accesses

The host's next access is the head of `host.pending`, and one step is one access (the model's form of the host,
assumption log 3). -/

/-- R21, R61: a write of `w` to CMD stores all 32 bits and then, when the word decodes to a command, is that command's
execution on the state with the new CMD; a word that is no command is `Err(CMD_ILLEGAL)`, code 16, with nothing but CMD, ERR
and STATUS changed. A read of CMD gives the last word written and starts nothing. -/
def Obligations.StepRunsTheCommandWritten : Prop :=
  ∀ (s : State) (rest : List Access),
    (∀ w : Word32, s.host.pending = .writeReg 0 w :: rest →
      let s' := { taken rest s with reg := { s.reg with cmd := w } }
      (∀ i : Instr, decode w = .ok i → step s = exec i s') ∧
      (∀ r : DecodeReject, decode w = .error r → step s = .next (reported 16 s'))) ∧
    (s.host.pending = .readReg 0 :: rest → step s = .next (answered (.word s.reg.cmd) (taken rest s)))

/-- R65: the illegal words, by their fields: each raises `Err(CMD_ILLEGAL)` and changes nothing but CMD, STATUS and ERR,
in every state of the core. -/
def Obligations.IllegalWordChangesOnlyCmdStatusErr : Prop :=
  ∀ (s : State) (rest : List Access) (w : Word32),
    s.host.pending = .writeReg 0 w :: rest →
    (w.toNat / 65536 ≠ 0 ∨ w.toNat % 256 ∉ [0x01, 0x02, 0x03, 0x04, 0x10] ∨
      (w.toNat % 256 ≠ 0x01 ∧ w.toNat / 256 % 256 ≠ 0)) →
    step s = .next (reported 16 { taken rest s with reg := { s.reg with cmd := w } })

/-- R160, R198: the machine never stops: every step answers a next state, whatever the state. -/
def Obligations.EveryStepAnswersNext : Prop :=
  ∀ s : State, s.GoesOn

/-- R48, R185: with no host access pending nothing changes. (That such a step exists is the model's form of the host,
assumption log 3.) -/
def Obligations.NothingChangesWithoutHostAccess : Prop :=
  ∀ s : State, s.host.pending = [] → step s = .next s

/-- R48: "Every host read (of any register, of any OUT byte) is free of side effects and idempotent": the step of a read
changes nothing but the host's own record, and the same read made again gives the same value. -/
def Obligations.HostReadsAreFreeOfSideEffects : Prop :=
  ∀ (s : State) (rest : List Access) (a : Access),
    (∃ i, a = .readReg i) ∨ (∃ o, a = .readOut o) →
    s.host.pending = a :: a :: rest →
    ∃ r t, step s = .next t ∧ t = answered r (taken (a :: rest) s) ∧ step t = .next (answered r (taken rest t))

/-- R20, R29, R31: what the host reads at every register index; an index at and beyond 0x13 reads zero. -/
def Obligations.HostReadsTheRegisterMap : Prop :=
  ∀ (s : State) (rest : List Access) (i : Nat), s.host.pending = .readReg i :: rest →
    ∃ v : Word32, step s = .next (answered (.word v) (taken rest s)) ∧
      v.toNat = if i < 0x13 then
        [s.reg.cmd.toNat, s.reg.status.toNat, s.reg.err.toNat, s.reg.ctrl.toNat, s.reg.tCost.toNat, s.reg.mCost.toNat,
         s.reg.lanes.toNat, s.reg.outlen.toNat, s.reg.pwdlen.toNat, s.reg.saltlen.toNat, s.reg.srcOff.toNat,
         s.reg.srcLen.toNat, s.reg.memblks.toNat, s.reg.seglen.toNat, s.reg.lanelen.toNat, 0x13, 2,
         s.cfg.capBlocks % 2 ^ 32, s.reg.outcnt.toNat].getD i 0 else 0

/-- R32: a host write to a read-only register is ignored: no state changes and no error is raised. -/
def Obligations.WriteToReadOnlyRegisterIsIgnored : Prop :=
  ∀ (s : State) (rest : List Access) (i : Nat) (v : Word32),
    i ∈ [0x01, 0x02, 0x0C, 0x0D, 0x0E, 0x0F, 0x10, 0x11, 0x12] →
    s.host.pending = .writeReg i v :: rest → step s = .next (taken rest s)

/-- R31: an unmapped index: a read returns zero, a write is ignored, and neither has any other effect. -/
def Obligations.UnmappedRegisterReadsZeroAndIgnoresWrites : Prop :=
  ∀ (s : State) (rest : List Access) (i : Nat), 0x13 ≤ i →
    (s.host.pending = .readReg i :: rest → step s = .next (answered (.word 0) (taken rest s))) ∧
    (∀ v, s.host.pending = .writeReg i v :: rest → step s = .next (taken rest s))

/-- R20, R24 to R27, R48: a host write to one of the nine operand registers: the register reads as the value written
(CTRL keeps bit 0 only), every other register index reads as before, and nothing but the REG space changes. -/
def Obligations.OperandRegisterWriteChangesThatRegisterOnly : Prop :=
  ∀ (s : State) (rest : List Access) (i : Nat) (v : Word32), 0x03 ≤ i → i ≤ 0x0B →
    s.host.pending = .writeReg i v :: rest →
    ∃ t, step s = .next t ∧ t = { taken rest s with reg := t.reg } ∧
      readReg t i = (if i = 0x03 then v &&& 1 else v) ∧ ∀ j, j ≠ i → readReg t j = readReg s j

/-- R44: a host write to IN changes the byte at its offset and no other, and is ignored at and beyond `IN_BYTES`; a host
read of OUT gives the byte, and zero at and beyond `OUT_BYTES`. -/
def Obligations.HostBufferAccesses : Prop :=
  ∀ (s : State) (rest : List Access) (o : Nat), Memory.wf 0 s.inb →
    (∀ b : Byte, s.host.pending = .writeIn o b :: rest →
      ∃ t, step s = .next t ∧ t = { taken rest s with inb := t.inb } ∧
        ∀ a, readIn t a = if a = o ∧ o < s.cfg.inBytes then b else readIn s a) ∧
    (s.host.pending = .readOut o :: rest →
      step s = .next (answered (.byte (if o < s.cfg.outBytes then readOut s o else 0)) (taken rest s)))

/-- R33, R184, decision D6: what the host reads depends on the registers, OUT and the parameters only: IN, WM, the
BLAKE2b unit and the engine cannot be read. -/
def Obligations.InternalStateCannotBeRead : Prop :=
  ∀ (s s' t t' : State) (rest : List Access) (a : Access),
    (∃ i, a = .readReg i) ∨ (∃ o, a = .readOut o) →
    s.host.pending = a :: rest → s'.host.pending = a :: rest →
    s.cfg = s'.cfg → s.reg = s'.reg → s.outb = s'.outb → s.host.replies = s'.host.replies →
    step s = .next t → step s' = .next t' → t.host = t'.host

/-! ## Reset -/

/-- R39, R20: what reset leaves, for every choice of the parameters: registers by index, the unit, the engine's registers,
IN and OUT. (WM is not named: the spec leaves it unspecified.) -/
def Obligations.ResetLeavesTheSpecValues : Prop :=
  ∀ c : Config, let s := State.resetWith c
    (∀ i, readReg s i = if i = 0x0F then 0x13 else if i = 0x10 then 2 else
      if i = 0x11 then BitVec.ofNat 32 c.capBlocks else 0) ∧
    UnitIsZero s.b2b ∧ EngineRegsAreZero s.eng ∧ (∀ a, readIn s a = 0) ∧ (∀ a, readOut s a = 0)

/-- R185: the reset event puts every piece of state into its reset value; the parameters are the hardware's own. That the
host's later accesses and what it has read stay is the model's choice (assumption log 3), and so is WM read as zero (log 2).
-/
def Obligations.ResetEventReachesTheResetState : Prop :=
  ∀ (s : State) (rest : List Access), s.host.pending = .reset :: rest →
    step s = .next { State.resetWith s.cfg with host := ⟨rest, s.host.replies⟩ }

/-! ## The BLAKE2b unit -/

/-- R87: the 128-bit number `t[0] + 2^64 * t[1]` is increased by `n` modulo `2^128`, and nothing else changes. -/
def Obligations.CounterIncrementIs128Bit : Prop :=
  ∀ (u : B2bUnit) (n : Nat), n ≤ 128 →
    (addCount n u).t0.toNat + 2 ^ 64 * (addCount n u).t1.toNat = (u.t0.toNat + 2 ^ 64 * u.t1.toNat + n) % 2 ^ 128 ∧
    addCount n u = { u with t0 := (addCount n u).t0, t1 := (addCount n u).t1 }

/-- R86: `B2B_INIT n` completes for every `n` from 1 to 64, whatever `active` is, and leaves the unit as the rule lists;
for every other `n` it raises `Err(B2B_OUTLEN)`, code 18, and no state of the unit changes. -/
def Obligations.InitStartsAHash : Prop :=
  ∀ (s : State) (n : Nat),
    (1 ≤ n → n ≤ 64 → ∃ u : B2bUnit, exec (.b2bInit n) s = .next (reported 0 { s with b2b := u }) ∧
      u.h[0] = blakeIV[0] ^^^ 0x0000000001010000 ^^^ BitVec.ofNat 64 n ∧
      (∀ i : Fin 8, i ≠ 0 → u.h[i] = blakeIV[i]) ∧
      u.t0 = 0 ∧ u.t1 = 0 ∧ u.f0 = 0 ∧ u.f1 = 0 ∧ (∀ i : Fin 128, u.buf[i] = 0) ∧ u.buflen = 0 ∧
      u.outlen.toNat = n ∧ u.active = true) ∧
    (n = 0 ∨ 64 < n → exec (.b2bInit n) s = .next (reported 18 s))

/-- R89: `B2B_UPDATE` absorbs the source window; its two errors, in their order, change nothing but ERR and STATUS. -/
def Obligations.UpdateAbsorbsTheSourceWindow : Prop :=
  ∀ s : State,
    (s.b2b.active = false → exec .b2bUpdate s = .next (reported 17 s)) ∧
    (s.b2b.active = true → ¬ SrcInRange s → exec .b2bUpdate s = .next (reported 19 s)) ∧
    (s.b2b.active = true → SrcInRange s →
      exec .b2bUpdate s = .next (reported 0 { s with b2b := absorb (sourceBytes s) s.b2b }))

/-- R88, consequences: after `L` bytes since the init, how many are in the buffer, which they are, and what the counter
holds. -/
def Obligations.AbsorbedBytesAreBufferedAndCounted : Prop :=
  ∀ (n : Nat) (msg : List Byte), 1 ≤ n → n ≤ 64 →
    let u := absorb msg (initUnit n)
    (msg.length = 0 → u = initUnit n) ∧
    (0 < msg.length → u.buflen.toNat = (msg.length - 1) % 128 + 1) ∧
    u.t0.toNat + 2 ^ 64 * u.t1.toNat = (msg.length - u.buflen.toNat) % 2 ^ 128 ∧
    (∀ (j : Nat) (hj : j < 128), j < u.buflen.toNat →
      u.buf[j] = msg.getD (msg.length - u.buflen.toNat + j) 0) ∧
    u.f0 = 0 ∧ u.f1 = 0 ∧ u.outlen.toNat = n ∧ u.active = true

/-- R89: "several updates have the same effect as one update of the concatenated bytes": two updates of neighbouring
windows leave the unit that one update of the joined window leaves. -/
def Obligations.TwoUpdatesAreOneOfTheJoinedWindow : Prop :=
  ∀ (s s1 : State) (off len1 len2 : Nat), off + len1 + len2 ≤ s.cfg.inBytes → s.cfg.inBytes < 2 ^ 32 →
    s.b2b.active = true →
    let win := fun (o l : Nat) (x : State) => { x with reg := { x.reg with srcOff := BitVec.ofNat 32 o, srcLen := BitVec.ofNat 32 l } }
    exec .b2bUpdate (win off len1 s) = .next s1 →
    ∃ s2 t, exec .b2bUpdate (win (off + len1) len2 s1) = .next s2 ∧
      exec .b2bUpdate (win off (len1 + len2) s) = .next t ∧ s2.b2b = t.b2b

/-- R92: the block form of absorbing agrees with the byte form R88 on everything any rule reads: the chaining value, the
counter, the flags, `buflen`, the bytes of `buf` below `buflen`, and the digest. -/
def Obligations.BlockFormOfAbsorbAgrees : Prop :=
  ∀ (u : B2bUnit) (msg : List Byte), u.buflen.toNat ≤ 128 →
    let a := absorb msg u
    let b := absorbBlockForm msg u
    b.h = a.h ∧ b.t0 = a.t0 ∧ b.t1 = a.t1 ∧ b.f0 = a.f0 ∧ b.f1 = a.f1 ∧ b.buflen = a.buflen ∧
    b.outlen = a.outlen ∧ b.active = a.active ∧
    (∀ i : Fin 128, i.val < a.buflen.toNat → b.buf[i] = a.buf[i]) ∧
    digest b = digest a

/-- R90, R91: `B2B_FINAL` delivers the digest to OUT, zeroes the rest of OUT and clears the unit; with no hash in progress
it raises `Err(B2B_STATE)` and changes nothing but ERR and STATUS. The premise is the model's invariant, a statement of its
own (it keeps `outlen` in the range R14 gives it). -/
def Obligations.FinalDeliversTheDigestAndClearsTheUnit : Prop :=
  ∀ s : State, s.Inv →
    (s.b2b.active = false → exec .b2bFinal s = .next (reported 17 s)) ∧
    (s.b2b.active = true → ∃ t, exec .b2bFinal s = .next t ∧
      OutHolds s.b2b.outlen.toNat (finalBytes s.b2b) s t ∧ UnitIsZero t.b2b ∧
      t = reported 0 { s with b2b := t.b2b, outb := t.outb, reg := { s.reg with outcnt := t.reg.outcnt } })

/-- R93: init, updates and final compute `BLAKE2b(n, msg)`, a function of `n` and the concatenation of the windows alone:
an init starts from the empty message, an update appends its window, the final delivers `n` bytes that depend on `n` and the
message only. The unit of the premise is the one `B2B_INIT n` and the absorbed message leave. -/
def Obligations.InitUpdateFinalComputeBlake2b : Prop :=
  ∀ (n : Nat) (msg : List Byte) (s : State), 1 ≤ n → n ≤ 64 → Memory.wf 0 s.outb →
    (blake2b n msg).length = n ∧
    (∃ t, exec (.b2bInit n) s = .next t ∧ t.b2b = absorb [] (initUnit n)) ∧
    (s.b2b = absorb msg (initUnit n) →
      (SrcInRange s → ∃ t, exec .b2bUpdate s = .next t ∧ t.b2b = absorb (msg ++ sourceBytes s) (initUnit n)) ∧
      (∃ t, exec .b2bFinal s = .next t ∧ OutHolds n (blake2b n msg) s t))

/-! ## The long hash -/

/-- R100, R101: `Hlong(n, msg)` is exactly `n` bytes long for every length the 4-byte prefix can hold, and for `n` up to 64
it is the one `BLAKE2b` of digest length `n` of the prefixed message. -/
def Obligations.LongHashHasTheRequestedLength : Prop :=
  ∀ (n : Nat) (msg : List Byte), 1 ≤ n → n ≤ 2 ^ 32 - 1 →
    (hlong n msg).length = n ∧ (n ≤ 64 → hlong n msg = blake2b n (le32 n ++ msg))

/-- R102, R103: the long case is `k = ceil((n - 64) / 32)` half digests of the chain, then one whole digest of the remaining
33 to 64 bytes. -/
def Obligations.LongHashIsAChainOfHalfDigests : Prop :=
  ∀ (n : Nat) (msg : List Byte), 64 < n → n ≤ 2 ^ 32 - 1 →
    let pre := le32 n ++ msg
    let k := (n - 64 + 31) / 32
    1 ≤ k ∧ 33 ≤ n - 32 * k ∧ n - 32 * k ≤ 64 ∧ 32 * k ≤ n ∧
    hlong n msg = (List.range k).flatMap (fun j => (chainDigest pre j).take 32) ++
      blake2b (n - 32 * k) (chainDigest pre (k - 1))

/-- R104: `B2B_LONG`: the three errors in their order change nothing but ERR and STATUS; otherwise the long hash of the
source window stands in OUT and the unit is clear. -/
def Obligations.LongDeliversTheLongHash : Prop :=
  ∀ s : State, Memory.wf 0 s.outb →
    (s.b2b.active = true → exec .b2bLong s = .next (reported 17 s)) ∧
    (s.b2b.active = false → (s.reg.outlen.toNat = 0 ∨ s.cfg.outBytes < s.reg.outlen.toNat) →
      exec .b2bLong s = .next (reported 18 s)) ∧
    (s.b2b.active = false → 1 ≤ s.reg.outlen.toNat → s.reg.outlen.toNat ≤ s.cfg.outBytes → ¬ SrcInRange s →
      exec .b2bLong s = .next (reported 19 s)) ∧
    (s.b2b.active = false → 1 ≤ s.reg.outlen.toNat → s.reg.outlen.toNat ≤ s.cfg.outBytes → SrcInRange s →
      ∃ t, exec .b2bLong s = .next t ∧
        OutHolds s.reg.outlen.toNat (hlong s.reg.outlen.toNat (sourceBytes s)) s t ∧ UnitIsZero t.b2b ∧
        t = reported 0 { s with b2b := t.b2b, outb := t.outb, reg := { s.reg with outcnt := t.reg.outcnt } })

/-! ## Argon2id: validation and derivation -/

/-- R110, R162, R164 to R175: with no hash in progress `A2ID_HASH` reports the first of the twelve checks that fails, in
their order; IN and the engine's registers and the unit are cleared, and nothing else changes. -/
def Obligations.HashReportsTheFirstFailingCheck : Prop :=
  ∀ (s : State) (code : BitVec 5), s.b2b.active = false → firstFailure s = some code →
    ∃ t, exec .a2idHash s = .next t ∧ t.NoSecretLeft 0 ∧ (∀ a, s.cfg.inBytes ≤ a → readIn t a = readIn s a) ∧
      (∀ j, t.eng.readWM j = s.eng.readWM j) ∧
      t = reported code { s with b2b := t.b2b, eng := t.eng, inb := t.inb }

/-- R111, R176: a request that passes the checks and is larger than the installed memory is `Err(MEMORY_ALLOCATION)`,
code 13: the derived sizes are visible, OUT, OUTCNT and WM are unchanged, IN and the engine's registers are cleared. -/
def Obligations.HashReportsMissingMemory : Prop :=
  ∀ s : State, s.b2b.active = false → firstFailure s = none → s.cfg.capBlocks < blocksOf s →
    ∃ t, exec .a2idHash s = .next t ∧ t.NoSecretLeft 0 ∧ (∀ a, s.cfg.inBytes ≤ a → readIn t a = readIn s a) ∧
      (∀ j, t.eng.readWM j = s.eng.readWM j) ∧
      t = reported 13 { withSizes s with b2b := t.b2b, eng := t.eng, inb := t.inb }

/-- R112: the derivation, in the registers it writes, with no wrap-around: `memory_blocks` is the memory cost rounded down
to a multiple of `4p`, and the three values are the numbers of the rule. -/
def Obligations.DeriveRoundsMemoryDown : Prop :=
  ∀ s : State, 1 ≤ s.reg.lanes.toNat → 8 * s.reg.lanes.toNat ≤ s.reg.mCost.toNat →
    (derive s).reg.memblks.toNat = s.reg.mCost.toNat - s.reg.mCost.toNat % (4 * s.reg.lanes.toNat) ∧
    (derive s).reg.memblks.toNat = blocksOf s ∧
    (derive s).reg.seglen.toNat = segOf s ∧
    (derive s).reg.lanelen.toNat = 4 * segOf s ∧
    derive s = withSizes s

/-- R117: the bounds on the registers `derive` writes that follow when the twelve checks pass. -/
def Obligations.DerivedSizesAreBounded : Prop :=
  ∀ s : State, validate s = none →
    let p := s.reg.lanes.toNat
    let m := s.reg.mCost.toNat
    let r := (derive s).reg
    1 ≤ p ∧ 2 ≤ r.seglen.toNat ∧ 8 ≤ r.lanelen.toNat ∧
    8 * p ≤ r.memblks.toNat ∧ r.memblks.toNat ≤ m ∧ m - r.memblks.toNat < 4 * p ∧
    r.memblks.toNat = p * r.lanelen.toNat

/-! ## Argon2id: block mixing -/

/-- R125: `fBlaMka` as arithmetic on numbers. -/
def Obligations.FBlaMkaIsMultiplyAdd : Prop :=
  ∀ x y : Word,
    (fBlaMka x y).toNat = (x.toNat + y.toNat + 2 * (x.toNat % 2 ^ 32) * (y.toNat % 2 ^ 32)) % 2 ^ 64

/-- R127: "`P` is a bijection on 1024-bit values". -/
def Obligations.PermutationIsABijection : Prop :=
  Function.Bijective permP

/-- R128, R129: each mixing pass applies `P` to its eight groups: what stands at the places of a group afterwards is `P` of
what stood there before, and every word of the block lies in exactly one group of each pass. -/
def Obligations.PassesPermuteTheirGroups : Prop :=
  (∀ (r : Block) (i : Fin 8),
    (Vec16.ofFn fun k => (firstPass r)[rowIndex i k]) = permP (Vec16.ofFn fun k => r[rowIndex i k]) ∧
    (Vec16.ofFn fun k => (secondPass r)[columnIndex i k]) = permP (Vec16.ofFn fun k => r[columnIndex i k])) ∧
  (∀ (i : Fin 8) (j : Fin 8) (e : Fin 2),
    (columnIndex i ⟨2 * j.val + e.val, by omega⟩).val = 2 * i.val + 16 * j.val + e.val) ∧
  (∀ (i : Fin 8) (k : Fin 16), (rowIndex i k).val = 16 * i.val + k.val) ∧
  (∀ w : Fin 128, (∃! p : Fin 8 × Fin 16, rowIndex p.1 p.2 = w) ∧ ∃! p : Fin 8 × Fin 16, columnIndex p.1 p.2 = w)

/-- R131: `fill_block` writes the one target block, `Pmix(ref ^ prev) ^ (ref ^ prev)`, XORed with the old contents when
`with_xor` is set, from the contents before the write; `R` and `Z` hold what the rule leaves in them; every other block and
every other register of the engine is unchanged. -/
def Obligations.FillBlockWritesTheTargetOnly : Prop :=
  ∀ (e : Engine) (prev ref cur : Nat) (withXor : Bool), Memory.wf Block.zero e.wm →
    let e' := fillBlock prev ref cur withXor e
    let x := (e.readWM ref).xor (e.readWM prev)
    (∀ k : Fin 128, (e'.readWM cur)[k] =
      if withXor = true then (mixPasses x)[k] ^^^ x[k] ^^^ (e.readWM cur)[k] else (mixPasses x)[k] ^^^ x[k]) ∧
    e'.blockR = mixPasses x ∧
    (∀ k : Fin 128, e'.blockZ[k] = if withXor = true then x[k] ^^^ (e.readWM cur)[k] else x[k]) ∧
    (∀ j, j ≠ cur → e'.readWM j = e.readWM j) ∧
    Memory.wf Block.zero e'.wm ∧
    e' = { e with blockR := e'.blockR, blockZ := e'.blockZ, wm := e'.wm }

/-- R131, corner case (95_test_vectors.md M5): equal previous and reference contents give the zero block, or the old block
when `with_xor` is set. -/
def Obligations.FillBlockOfEqualBlocks : Prop :=
  ∀ (e : Engine) (prev ref cur : Nat), Memory.wf Block.zero e.wm → e.readWM ref = e.readWM prev →
    (fillBlock prev ref cur false e).readWM cur = Block.zero ∧
    (fillBlock prev ref cur true e).readWM cur = e.readWM cur

/-- R133: `next_addresses` increments the counter word before use and applies the block mixing twice:
`ADDR = Q(Q(INP))`, `Q(X) = Pmix(X) ^ X`. -/
def Obligations.NextAddressesMixesTheInputTwice : Prop :=
  ∀ e : Engine, e.zeroB = Block.zero →
    let e' := nextAddresses e
    e'.inp[6] = e.inp[6] + 1 ∧ (∀ k : Fin 128, k.val ≠ 6 → e'.inp[k] = e.inp[k]) ∧
    e'.addr = mixed (mixed e'.inp) ∧
    e' = { e with inp := e'.inp, addr := e'.addr, blockR := e'.blockR, blockZ := e'.blockZ }

/-- R8, R43: the little-endian conversions between 1024 bytes and a block are inverse to each other. -/
def Obligations.BlockBytesRoundTrip : Prop :=
  (∀ x : Block, x.bytes.length = 1024 ∧ Block.words x.bytes = x) ∧
  (∀ b : List Byte, b.length = 1024 → (Block.words b).bytes = b)

/-! ## Argon2id: addressing -/

/-- R143: the mapping of `J1` into the window, as numbers, with its corner cases. -/
def Obligations.WindowMapping : Prop :=
  ∀ area j1 : Word32,
    (mapX j1).toNat = j1.toNat * j1.toNat / 2 ^ 32 ∧ (mapX j1).toNat < 2 ^ 32 ∧
    (mapY area j1).toNat = area.toNat * (mapX j1).toNat / 2 ^ 32 ∧
    (area = 0 → (mapY area j1).toNat = 0 ∧ (relPosition area j1).toNat = 2 ^ 32 - 1) ∧
    (1 ≤ area.toNat →
      (mapY area j1).toNat < area.toNat ∧
      (relPosition area j1).toNat = area.toNat - 1 - (mapY area j1).toNat ∧
      (j1 = 0 → (mapX j1).toNat = 0 ∧ (mapY area j1).toNat = 0 ∧ (relPosition area j1).toNat = area.toNat - 1) ∧
      (j1 = 0xFFFFFFFF → (mapX j1).toNat = 0xFFFFFFFE ∧
        (area.toNat ≤ 2 ^ 31 → (mapY area j1).toNat = area.toNat - 1 ∧ (relPosition area j1).toNat = 0)) ∧
      (area = 1 → (relPosition area j1).toNat = 0))

/-- R145, R52: the reference block lies in the memory region and is never the block being produced nor the previous one; in
another lane it lies in another slice than the current one. -/
def Obligations.ReferenceIsInBoundsAndNeverAliases : Prop :=
  ∀ (sh : Shape) (pass slice lane index : Nat) (rand : Word), ShapeOk sh → PositionOk sh pass slice lane index →
    let rl := refLane sh pass slice lane rand
    let area := areaSize sh pass slice index (decide (rl = lane))
    let ri := indexAlpha sh pass slice index (decide (rl = lane)) (lowHalf rand)
    1 ≤ area.toNat ∧ (relPosition area (lowHalf rand)).toNat ≤ area.toNat - 1 ∧
    rl < sh.lanes ∧ ri < sh.laneLen ∧
    refIndex sh pass slice lane index rand < sh.memBlocks ∧
    refIndex sh pass slice lane index rand ≠ curIndex sh lane slice index ∧
    refIndex sh pass slice lane index rand ≠ prevIndex sh lane slice index ∧
    prevIndex sh lane slice index ≠ curIndex sh lane slice index ∧
    prevIndex sh lane slice index < sh.memBlocks ∧ curIndex sh lane slice index < sh.memBlocks ∧
    (rl ≠ lane → ri / sh.segLen ≠ slice)

/-- R145: in the current lane the last eligible position of the window is `j_cur - 2` modulo the lane length, so the window
ends just before the previous block. -/
def Obligations.SameLaneWindowEndsBeforeThePreviousBlock : Prop :=
  ∀ (sh : Shape) (pass slice lane index : Nat), ShapeOk sh → PositionOk sh pass slice lane index →
    (windowStart sh pass slice + (areaSize sh pass slice index true).toNat + 1) % sh.laneLen =
      (slice * sh.segLen + index) % sh.laneLen

/-- R148: in pass 0 the first two blocks of every lane are never overwritten by the loops. -/
def Obligations.FirstPassKeepsTheSeedBlocks : Prop :=
  ∀ (sh : Shape) (e : Engine) (l : Nat), ShapeOk sh → l < sh.lanes →
    (fillPass sh 0 e).readWM (l * sh.laneLen) = e.readWM (l * sh.laneLen) ∧
    (fillPass sh 0 e).readWM (l * sh.laneLen + 1) = e.readWM (l * sh.laneLen + 1)

/-- R46, R149: the fill writes blocks of the memory region only, keeps WM in canonical form and does not touch `H0BUF` or
`C`. -/
def Obligations.FillStaysInsideTheRegion : Prop :=
  ∀ (sh : Shape) (e : Engine), ShapeOk sh → Memory.wf Block.zero e.wm →
    (∀ j, sh.memBlocks ≤ j → (fillMemory sh e).readWM j = e.readWM j) ∧
    Memory.wf Block.zero (fillMemory sh e).wm ∧
    (fillMemory sh e).h0buf = e.h0buf ∧ (fillMemory sh e).blockC = e.blockC

/-! ## A2ID_HASH -/

/-- R152, R150, R47, R28: `A2ID_HASH` completes on every request that is accepted: the result of the phases stands in OUT,
the derived sizes in their registers, and everything else but the zeroized state is unchanged; WM beyond the region and IN
beyond its end are untouched (R113). What the phases do is said by statements of their own: seed and first blocks
(`SeedLanesFillTheFirstBlocks`), the fill (`FillRunsTheSegmentsInOrder`, `StartSegmentSetsTheInputBlock`,
`OneTurnProducesTheBlock`), the final block (`FinalBlockXorsTheLastBlocks`). -/
def Obligations.HashDeliversTheResult : Prop :=
  ∀ s : State, Accepted s → Memory.wf 0 s.outb →
    ∃ t, exec .a2idHash s = .next t ∧
      OutHolds s.reg.outlen.toNat (hashBytes s) s t ∧ (hashBytes s).length = s.reg.outlen.toNat ∧
      t.NoSecretLeft (blocksOf s) ∧
      (∀ j, blocksOf s ≤ j → t.eng.readWM j = s.eng.readWM j) ∧
      (∀ a, s.cfg.inBytes ≤ a → readIn t a = readIn s a) ∧
      t.reg.memblks.toNat = t.reg.seglen.toNat * t.reg.lanes.toNat * 4 ∧ t.reg.lanelen.toNat = 4 * t.reg.seglen.toNat ∧
      t = reported 0 { withSizes s with
        b2b := t.b2b, eng := t.eng, inb := t.inb, outb := t.outb
        reg := { (withSizes s).reg with outcnt := t.reg.outcnt } }

/-- R151, R152, R177: after `A2ID_HASH` past the unit-busy check, success or failure, nothing of the password, the salt or
the working memory is left; OUT and OUTCNT and the operand registers are kept on failure. -/
def Obligations.HashLeavesNoSecret : Prop :=
  ∀ s t : State, s.b2b.active = false → exec .a2idHash s = .next t →
    t.NoSecretLeft (if t.reg.err = 0 then t.reg.memblks.toNat else 0) ∧ OperandsKept s t ∧
    (t.reg.err ≠ 0 → t.reg.outcnt = s.reg.outcnt ∧ ∀ a, readOut t a = readOut s a)

/-- R152, R193, R34: the result is a function of the time cost, the memory figure, the lanes, the output length, the
password and the salt: two accepted requests that agree on these give the same bytes, whatever the two machines hold
otherwise, the contents of the working memory and of every engine register included; and under `H0_MEM_SOURCE = derived` the
memory cost counts only through the rounded `memory_blocks`. -/
def Obligations.ResultDependsOnTheOperandsOnly : Prop :=
  ∀ s s' : State, Accepted s → Accepted s' → Memory.wf 0 s.outb → Memory.wf 0 s'.outb →
    Memory.wf Block.zero s.eng.wm → Memory.wf Block.zero s'.eng.wm →
    s.cfg.h0MemSource = s'.cfg.h0MemSource →
    s.reg.tCost = s'.reg.tCost → s.reg.lanes = s'.reg.lanes → s.reg.outlen = s'.reg.outlen →
    s.reg.pwdlen = s'.reg.pwdlen → s.reg.saltlen = s'.reg.saltlen →
    blocksOf s = blocksOf s' → (s.cfg.h0MemSource = .requested → s.reg.mCost = s'.reg.mCost) →
    (∀ a, a < s.reg.pwdlen.toNat + s.reg.saltlen.toNat → readIn s a = readIn s' a) →
    ∃ t t', exec .a2idHash s = .next t ∧ exec .a2idHash s' = .next t' ∧ t.reg.outcnt = t'.reg.outcnt ∧
      ∀ a, a < s.reg.outlen.toNat → readOut t a = readOut t' a

/-! ## Every command -/

/-- R163, R22: every command, whatever its outcome, ends with ERR and the three STATUS bits written: DONE, FAIL exactly
when the code is not zero, and `active` as the command left it; as the host reads them. -/
def Obligations.EveryCommandReportsItsOutcome : Prop :=
  ∀ (i : Instr) (s t : State), exec i s = .next t →
    (readReg t 1).toNat = 1 + (if readReg t 2 = 0 then 0 else 2) + (if t.b2b.active = true then 4 else 0) ∧
    ((readReg t 2).toNat ≤ 13 ∨ (16 ≤ (readReg t 2).toNat ∧ (readReg t 2).toNat ≤ 19))

/-- R179, R192: the unit in the wrong state for the command: `Err(B2B_STATE)`, code 17, and nothing changes but ERR and
STATUS. -/
def Obligations.WrongUnitStateIsRefused : Prop :=
  ∀ s : State,
    (s.b2b.active = false → exec .b2bUpdate s = .next (reported 17 s) ∧ exec .b2bFinal s = .next (reported 17 s)) ∧
    (s.b2b.active = true → exec .b2bLong s = .next (reported 17 s) ∧ exec .a2idHash s = .next (reported 17 s))

/-- R25 to R28, R30, R177: no command changes CMD, an operand register or a parameter; a failing command leaves OUT and
OUTCNT, and one that reports a code of 16 or more changes nothing but ERR and STATUS. -/
def Obligations.CommandsKeepTheOperandRegisters : Prop :=
  ∀ (i : Instr) (s t : State), exec i s = .next t →
    OperandsKept s t ∧
    (t.reg.err ≠ 0 → t.reg.outcnt = s.reg.outcnt ∧ t.outb = s.outb) ∧
    (16 ≤ t.reg.err.toNat → t = reported t.reg.err s)

/-- Frame of the commands that write the unit only (R86, R89): `B2B_INIT` and `B2B_UPDATE` leave IN, OUT, WM, the engine and
every register but ERR and STATUS unchanged. -/
def Obligations.InitAndUpdateFrame : Prop :=
  ∀ (i : Instr) (s t : State), ((∃ n, i = .b2bInit n) ∨ i = .b2bUpdate) → exec i s = .next t →
    t = { s with b2b := t.b2b, reg := { s.reg with err := t.reg.err, status := t.reg.status } } ∧
    (∀ a, readIn t a = readIn s a) ∧ (∀ a, readOut t a = readOut s a) ∧ (∀ j, t.eng.readWM j = s.eng.readWM j)

/-- Frame of the commands that store to OUT (R90, R104, R47): `B2B_FINAL` and `B2B_LONG` leave IN, WM, the engine, MEMBLKS,
SEGLEN, LANELEN and every operand register unchanged; of OUT's address space the bytes beyond `OUT_BYTES` and beyond the
result's length are unchanged, and all of OUT is when the command fails. -/
def Obligations.FinalAndLongFrame : Prop :=
  ∀ (i : Instr) (s t : State), (i = .b2bFinal ∨ i = .b2bLong) → Memory.wf 0 s.outb → exec i s = .next t →
    t = { s with b2b := t.b2b, outb := t.outb
                 reg := { s.reg with err := t.reg.err, status := t.reg.status, outcnt := t.reg.outcnt } } ∧
    (∀ a, readIn t a = readIn s a) ∧ (∀ j, t.eng.readWM j = s.eng.readWM j) ∧
    (t.reg.err ≠ 0 → ∀ a, readOut t a = readOut s a) ∧
    (∀ a, s.cfg.outBytes ≤ a → t.reg.outcnt.toNat ≤ a → readOut t a = readOut s a)

/-! ## Invariants -/

/-- The invariant holds right after reset, for all admissible parameters. Two clauses are the model's choice and no rule of
the spec: that WM lists nothing after reset (part of `State.Inv.engine`; R39 calls WM unspecified there and R34 says "a model
may take them as zero": assumption log 2), and that the parameters of `State.reset` are the suggested ones (log 1), on which
the second half rests. -/
def Obligations.ResetMeetsTheInvariant : Prop :=
  (∀ c : Config, c.wf → (State.resetWith c).Inv) ∧ State.reset.Inv

/-- The invariant of `State.Inv` is kept by every step: memories in canonical form and inside their spaces, OUT holding one
result, the engine and the working memory zero between commands, the unit cleared or in its ranges, STATUS in step with ERR
and `active`, ERR a code of R161, the sizes related as R28 says. That WM lists nothing (part of `State.Inv.engine`) is kept
through a reset only by the model's choice of WM after reset (assumption log 2; R39 calls it unspecified and R34 says "a
model may take them as zero"); that the reset keeps the host's lists is the choice of log 3. -/
def Obligations.EveryStepKeepsTheInvariant : Prop :=
  ∀ s t : State, s.Inv → step s = .next t → t.Inv

/-! ## What the computations are made of -/

/-- R82 to R85: the compression: twelve rounds of eight applications of `G` on the working vector, then the fold into `h`;
no other register of the unit changes. R126, R127: `P` is the eight applications of `GB` in the same order. -/
def Obligations.CompressionAndPermutationFollowTheirSteps : Prop :=
  (∀ (m : Vector Word 16) (r : Nat) (v : Vec16) (k : Fin 16),
    (blakeRound m r v).get k = roundAt (fun i => m[i]) r v.get k) ∧
  (∀ (blk : List Byte) (u : B2bUnit),
    (∀ i : Fin 8, (compress blk u).h[i] =
      u.h[i] ^^^ workEnd blk u ⟨i.val, by omega⟩ ^^^ workEnd blk u ⟨i.val + 8, by omega⟩) ∧
    compress blk u = { u with h := (compress blk u).h }) ∧
  (∀ (v : Vec16) (k : Fin 16), (permP v).get k = eightTimes (fun _ => gbAt) v.get k)

/-- R113, R114, R115: after allocation and the first blocks, the first two blocks of every lane are made from the seed
digest of the operands, every other block of the region is zero, no block beyond it has changed, `H0BUF` is zero, and no
other register of the engine has changed. -/
def Obligations.SeedLanesFillTheFirstBlocks : Prop :=
  ∀ (s : State) (e : Engine), validate s = none → Memory.wf Block.zero e.wm →
    let d := derive s
    let ll := d.reg.lanelen.toNat
    let e' := seedLanes d (shapeOf d) (allocate d.reg.memblks.toNat e)
    (∀ l, l < s.reg.lanes.toNat →
      e'.readWM (l * ll) = seedBlock s l 0 ∧ e'.readWM (l * ll + 1) = seedBlock s l 1) ∧
    (∀ j, (∀ l, l < s.reg.lanes.toNat → j ≠ l * ll ∧ j ≠ l * ll + 1) →
      e'.readWM j = if j < d.reg.memblks.toNat then Block.zero else e.readWM j) ∧
    (∀ i : Fin 72, e'.h0buf[i] = 0) ∧
    (seedInput s).length = 40 + s.reg.pwdlen.toNat + s.reg.saltlen.toNat ∧
    Memory.wf Block.zero e'.wm ∧
    e' = { e with wm := e'.wm, h0buf := e'.h0buf }

/-- R134, R140, R148: what stands before a segment's loop: in pass 0, slices 0 and 1, `ZERO` is zero and `INP` holds the
seven words of the position, its counter 0; in slice 0 one `next_addresses` has then run (counter 1). Any other segment
starts with the engine unchanged. -/
def Obligations.StartSegmentSetsTheInputBlock : Prop :=
  ∀ (sh : Shape) (pass slice lane : Nat) (e : Engine),
    let e' := startSegment sh pass slice lane e
    (¬ (pass = 0 ∧ slice < 2) → e' = e) ∧
    (pass = 0 → slice < 2 →
      (∀ k : Fin 128, e'.inp[k] = BitVec.ofNat 64
        ([pass, lane, slice, sh.memBlocks, sh.passes, 2, if slice = 0 then 1 else 0].getD k.val 0)) ∧
      (∀ k : Fin 128, e'.zeroB[k] = 0) ∧
      (slice = 0 → e'.addr = mixed (mixed e'.inp) ∧
        e' = { e with inp := e'.inp, zeroB := e'.zeroB, addr := e'.addr, blockR := e'.blockR, blockZ := e'.blockZ }) ∧
      (slice = 1 → e' = { e with inp := e'.inp, zeroB := e'.zeroB }))

/-- R146, R147, R148, R131: one turn of the segment loop: the current block becomes the mix of the previous block and the
block the pseudo-random value selects, XORed with its old contents after pass 0; no other block changes; `ADDR` and the
counter word of `INP` change exactly where the turn regenerates the addresses; the position descriptor holds the position. -/
def Obligations.OneTurnProducesTheBlock : Prop :=
  ∀ (sh : Shape) (pass slice lane index : Nat) (e : Engine), ShapeOk sh → PositionOk sh pass slice lane index →
    Memory.wf Block.zero e.wm →
    let e' := fillOne sh pass slice lane index e
    let cur := lane * sh.laneLen + (slice * sh.segLen + index)
    let rand := randOf sh pass slice lane index e
    let x := (e.readWM (referenceOf sh pass slice lane index rand.toNat)).xor
      (e.readWM (previousOf sh lane slice index))
    (∀ k : Fin 128, (e'.readWM cur)[k] =
      if pass = 0 then (mixed x)[k] else (mixed x)[k] ^^^ (e.readWM cur)[k]) ∧
    (∀ j, j ≠ cur → e'.readWM j = e.readWM j) ∧
    Memory.wf Block.zero e'.wm ∧
    e'.addr = addressesOf pass slice index e ∧
    e'.inp = (if pass = 0 ∧ slice < 2 ∧ index % 128 = 0 then e.inp.set 6 (e.inp[6] + 1) else e.inp) ∧
    e'.pos = ⟨BitVec.ofNat 32 pass, BitVec.ofNat 32 lane, BitVec.ofNat 2 slice, BitVec.ofNat 32 index⟩ ∧
    e' = { e with wm := e'.wm, addr := e'.addr, inp := e'.inp, pos := e'.pos, blockR := e'.blockR, blockZ := e'.blockZ }

/-- R148, R149: the fill is its segments one after another, pass by pass, slice by slice, lane by lane; a segment is its
start and then one turn for each index from 2 (pass 0, slice 0) or 0; the turns are `t * memory_blocks - 2 * p` in all. -/
def Obligations.FillRunsTheSegmentsInOrder : Prop :=
  ∀ sh : Shape,
    (∀ e : Engine, fillMemory sh e = (segments sh).foldl (fun e x => fillSegment sh x.1 x.2.1 x.2.2 e) e) ∧
    (∀ (pass slice lane : Nat) (e : Engine),
      fillSegment sh pass slice lane e =
        (List.range' (firstOf pass slice) (sh.segLen - firstOf pass slice)).foldl
          (fun e index => fillOne sh pass slice lane index e) (startSegment sh pass slice lane e)) ∧
    (ShapeOk sh → 1 ≤ sh.passes →
      ((segments sh).map fun x => sh.segLen - firstOf x.1 x.2.1).sum = sh.passes * sh.memBlocks - 2 * sh.lanes)

/-- R150: `C` is the XOR, word by word, of the last block of every lane, and nothing else changes. -/
def Obligations.FinalBlockXorsTheLastBlocks : Prop :=
  ∀ (sh : Shape) (e : Engine), 1 ≤ sh.lanes → 1 ≤ sh.laneLen →
    (∀ k : Fin 128, (finalBlock sh e).blockC[k] =
      ((List.range sh.lanes).map fun l => (e.readWM (l * sh.laneLen + (sh.laneLen - 1)))[k]).foldl (· ^^^ ·) 0) ∧
    finalBlock sh e = { e with blockC := (finalBlock sh e).blockC }
end

