-- ==== Sys2Proof/Laws/Addressing.lean ====
section
/-! SUPPORT. The window of R141 as a number: inside a fill its 32-bit arithmetic does not wrap. -/

namespace Sys2Proof.Machine

/-- R141 on numbers. -/
def areaNat (sh : Shape) (pass slice index : Nat) (sameLane : Bool) : Nat :=
  if pass = 0 then
    if slice = 0 then index - 1
    else if sameLane then slice * sh.segLen + index - 1
    else if index = 0 then slice * sh.segLen - 1 else slice * sh.segLen
  else if sameLane then sh.laneLen - sh.segLen + index - 1
  else if index = 0 then sh.laneLen - sh.segLen - 1 else sh.laneLen - sh.segLen

theorem areaSize_toNat (sh : Shape) (pass slice index : Nat) (sameLane : Bool) (hseg : 2 ≤ sh.segLen)
    (hlane : sh.laneLen = 4 * sh.segLen) (hlt : sh.laneLen < 2 ^ 32) (hslice : slice < 4) (hindex : index < sh.segLen)
    (hstart : pass = 0 → slice = 0 → 2 ≤ index) :
    (areaSize sh pass slice index sameLane).toNat = areaNat sh pass slice index sameLane := by
  have h3 : slice * sh.segLen ≤ 3 * sh.segLen := Nat.mul_le_mul_right _ (by omega)
  have h1 : slice ≠ 0 → 1 * sh.segLen ≤ slice * sh.segLen := fun h => Nat.mul_le_mul_right _ (by omega)
  have one : (1 : BitVec 32).toNat = 1 := rfl
  unfold areaSize areaNat
  simp only [hlane] at *
  generalize slice * sh.segLen = d at *
  split
  · split
    · simp only [BitVec.toNat_sub, BitVec.toNat_ofNat, one]; omega
    · split
      · simp only [BitVec.toNat_sub, BitVec.toNat_add, BitVec.toNat_ofNat, one]; omega
      · split
        · simp only [BitVec.toNat_sub, BitVec.toNat_ofNat, one]; omega
        · simp only [BitVec.toNat_ofNat]; omega
  · split
    · simp only [BitVec.toNat_sub, BitVec.toNat_add, BitVec.toNat_ofNat, one]; omega
    · split
      · simp only [BitVec.toNat_sub, BitVec.toNat_ofNat, one]; omega
      · simp only [BitVec.toNat_sub, BitVec.toNat_ofNat]; omega

end Sys2Proof.Machine
end

