-- ==== Sys2Proof/Laws/Words.lean ====
section
/-! SUPPORT. Byte strings and byte registers: lengths, little-endian values, runs of writes. -/

namespace Sys2Proof.Machine

@[simp] theorem leBytes_length (n v : Nat) : (leBytes n v).length = n := by
  induction n generalizing v with
  | zero => rfl
  | succ n ih => simp [leBytes, ih]

@[simp] theorem le32_length (v : Nat) : (le32 v).length = 4 := leBytes_length 4 v

@[simp] theorem le64_length (w : Word) : (le64 w).length = 8 := leBytes_length 8 w.toNat

theorem leNat_append (a b : List Byte) : leNat (a ++ b) = leNat a + 256 ^ a.length * leNat b := by
  induction a with
  | nil => simp [leNat]
  | cons x a ih => simp only [List.cons_append, leNat, ih, List.length_cons, pow_succ]; ring

theorem leNat_lt (b : List Byte) : leNat b < 256 ^ b.length := by
  induction b with
  | nil => simp [leNat]
  | cons x b ih =>
    have hx : x.toNat < 256 := x.isLt
    simp only [leNat, List.length_cons, pow_succ]
    omega

/-- The bytes of a number stand for the number modulo their range. -/
theorem leNat_leBytes (n v : Nat) : leNat (leBytes n v) = v % 256 ^ n := by
  induction n generalizing v with
  | zero => simp [leBytes, leNat, Nat.mod_one]
  | succ n ih =>
    rw [leBytes, leNat, ih, BitVec.toNat_ofNat, pow_succ 256 n, Nat.mul_comm (256 ^ n) 256, Nat.mod_mul]

/-- The number of a byte string has the string as its bytes. -/
theorem leBytes_leNat (b : List Byte) : leBytes b.length (leNat b) = b := by
  induction b with
  | nil => rfl
  | cons x b ih =>
    have hx : x.toNat < 256 := x.isLt
    have h1 : (x.toNat + 256 * leNat b) / 256 = leNat b := by omega
    have h2 : BitVec.ofNat 8 (x.toNat + 256 * leNat b) = x := by
      apply BitVec.eq_of_toNat_eq
      simp only [BitVec.toNat_ofNat]; omega
    simp only [List.length_cons, leBytes, leNat, h1, h2, ih]

@[simp] theorem writeRun_nil {n : Nat} (off : Nat) (v : Vector Byte n) : writeRun [] off v = v := rfl

/-- What a byte register file holds after a run of writes. -/
theorem getElem_writeRun {n : Nat} (bs : List Byte) (off : Nat) (v : Vector Byte n) (i : Nat) (hi : i < n) :
    (writeRun bs off v)[i] = if off ≤ i ∧ i < off + bs.length then bs.getD (i - off) 0 else v[i] := by
  induction bs generalizing off v with
  | nil => simp [writeRun]
  | cons b bs ih =>
    rw [writeRun, ih]
    rcases Nat.lt_trichotomy i off with h | rfl | h
    · rw [if_neg (by omega), if_neg (by omega), Vector.getElem_setIfInBounds_ne (by omega) (by omega)]
    · rw [if_neg (by omega), if_pos (by simp)]; simp
    · have e : i - off = (i - (off + 1)) + 1 := by omega
      simp only [List.length_cons]
      by_cases hl : i < off + (bs.length + 1)
      · rw [if_pos (by omega), if_pos (by omega), e]; simp
      · rw [if_neg (by omega), if_neg (by omega), Vector.getElem_setIfInBounds_ne (by omega) (by omega)]

/-- The same as a byte string, for a run that ends inside the file. -/
theorem toList_writeRun {n : Nat} (bs : List Byte) (off : Nat) (v : Vector Byte n) (h : off + bs.length ≤ n) :
    (writeRun bs off v).toList = v.toList.take off ++ bs ++ v.toList.drop (off + bs.length) := by
  apply List.ext_getElem
  · simp only [Vector.length_toList, List.length_append, List.length_take, List.length_drop]; omega
  · intro i h1 _
    have hi : i < n := by simpa using h1
    rw [Vector.getElem_toList, getElem_writeRun _ _ _ _ hi]
    simp only [List.append_assoc, List.getElem_append, List.length_take, Vector.length_toList]
    rcases Nat.lt_or_ge i off with a | a
    · rw [if_neg (by omega), dif_pos (by omega), List.getElem_take, Vector.getElem_toList]
    · rw [dif_neg (by omega)]
      simp only [show min off n = off by omega]
      rcases Nat.lt_or_ge i (off + bs.length) with b | b
      · rw [if_pos (by omega), dif_pos (by omega), List.getD_eq_getElem _ _ (by omega)]
      · rw [if_neg (by omega), dif_neg (by omega), List.getElem_drop, Vector.getElem_toList]
        congr 1; omega


end Sys2Proof.Machine
end

