-- ==== Sys2Proof/Laws/Blake2b.lean ====
section
/-! SUPPORT. The BLAKE2b unit: which registers each internal operation writes, what absorbing keeps, lengths of digests. -/

namespace Sys2Proof.Machine

/-! ## Which registers an operation writes -/

@[simp] theorem compress_t0 (blk : List Byte) (u : B2bUnit) : (compress blk u).t0 = u.t0 := rfl
@[simp] theorem compress_t1 (blk : List Byte) (u : B2bUnit) : (compress blk u).t1 = u.t1 := rfl
@[simp] theorem compress_f0 (blk : List Byte) (u : B2bUnit) : (compress blk u).f0 = u.f0 := rfl
@[simp] theorem compress_f1 (blk : List Byte) (u : B2bUnit) : (compress blk u).f1 = u.f1 := rfl
@[simp] theorem compress_buf (blk : List Byte) (u : B2bUnit) : (compress blk u).buf = u.buf := rfl
@[simp] theorem compress_buflen (blk : List Byte) (u : B2bUnit) : (compress blk u).buflen = u.buflen := rfl
@[simp] theorem compress_outlen (blk : List Byte) (u : B2bUnit) : (compress blk u).outlen = u.outlen := rfl
@[simp] theorem compress_active (blk : List Byte) (u : B2bUnit) : (compress blk u).active = u.active := rfl

@[simp] theorem addCount_h (n : Nat) (u : B2bUnit) : (addCount n u).h = u.h := rfl
@[simp] theorem addCount_f0 (n : Nat) (u : B2bUnit) : (addCount n u).f0 = u.f0 := rfl
@[simp] theorem addCount_f1 (n : Nat) (u : B2bUnit) : (addCount n u).f1 = u.f1 := rfl
@[simp] theorem addCount_buf (n : Nat) (u : B2bUnit) : (addCount n u).buf = u.buf := rfl
@[simp] theorem addCount_buflen (n : Nat) (u : B2bUnit) : (addCount n u).buflen = u.buflen := rfl
@[simp] theorem addCount_outlen (n : Nat) (u : B2bUnit) : (addCount n u).outlen = u.outlen := rfl
@[simp] theorem addCount_active (n : Nat) (u : B2bUnit) : (addCount n u).active = u.active := rfl
@[simp] theorem addCount_t0 (n : Nat) (u : B2bUnit) : (addCount n u).t0 = u.t0 + BitVec.ofNat 64 n := rfl

/-- The two cases of `flushFull`. -/
theorem flushFull_full (u : B2bUnit) (h : u.buflen = 128) :
    flushFull u = { compress u.buf.toList (addCount 128 u) with buflen := 0 } := if_pos h

theorem flushFull_other (u : B2bUnit) (h : u.buflen ≠ 128) : flushFull u = u := if_neg h

@[simp] theorem flushFull_f0 (u : B2bUnit) : (flushFull u).f0 = u.f0 := by unfold flushFull; split <;> rfl
@[simp] theorem flushFull_f1 (u : B2bUnit) : (flushFull u).f1 = u.f1 := by unfold flushFull; split <;> rfl
@[simp] theorem flushFull_buf (u : B2bUnit) : (flushFull u).buf = u.buf := by unfold flushFull; split <;> rfl
@[simp] theorem flushFull_outlen (u : B2bUnit) : (flushFull u).outlen = u.outlen := by unfold flushFull; split <;> rfl
@[simp] theorem flushFull_active (u : B2bUnit) : (flushFull u).active = u.active := by unfold flushFull; split <;> rfl

/-- After a flush there is room for a byte. -/
theorem flushFull_room (u : B2bUnit) (h : u.buflen.toNat ≤ 128) : (flushFull u).buflen.toNat < 128 := by
  by_cases hf : u.buflen = 128
  · rw [flushFull_full u hf]; exact Nat.zero_lt_succ 127
  · rw [flushFull_other u hf]
    refine lt_of_le_of_ne h fun e => hf (BitVec.eq_of_toNat_eq (by simpa using e))

/-! ## Absorbing -/

@[simp] theorem absorb_nil (u : B2bUnit) : absorb [] u = u := rfl

theorem absorb_cons (x : Byte) (xs : List Byte) (u : B2bUnit) : absorb (x :: xs) u = absorb xs (absorbByte u x) := rfl

theorem absorb_concat (a b : List Byte) (u : B2bUnit) : absorb (a ++ b) u = absorb b (absorb a u) := by
  simp [absorb, List.foldl_append]

/-- What every byte keeps, a byte string keeps. -/
theorem absorb_keeps (P : B2bUnit → Prop) (h : ∀ u x, P u → P (absorbByte u x)) (xs : List Byte) (u : B2bUnit)
    (hu : P u) : P (absorb xs u) := by
  induction xs generalizing u with
  | nil => exact hu
  | cons x xs ih => exact ih _ (h u x hu)

@[simp] theorem absorb_active (xs : List Byte) (u : B2bUnit) : (absorb xs u).active = u.active :=
  absorb_keeps (fun v => v.active = u.active) (fun v x hv => by simpa [absorbByte] using hv) xs u rfl

@[simp] theorem absorb_outlen (xs : List Byte) (u : B2bUnit) : (absorb xs u).outlen = u.outlen :=
  absorb_keeps (fun v => v.outlen = u.outlen) (fun v x hv => by simpa [absorbByte] using hv) xs u rfl

@[simp] theorem absorb_f0 (xs : List Byte) (u : B2bUnit) : (absorb xs u).f0 = u.f0 :=
  absorb_keeps (fun v => v.f0 = u.f0) (fun v x hv => by simpa [absorbByte] using hv) xs u rfl

@[simp] theorem absorb_f1 (xs : List Byte) (u : B2bUnit) : (absorb xs u).f1 = u.f1 :=
  absorb_keeps (fun v => v.f1 = u.f1) (fun v x hv => by simpa [absorbByte] using hv) xs u rfl

theorem absorbByte_buflen (u : B2bUnit) (x : Byte) (h : u.buflen.toNat ≤ 128) :
    (absorbByte u x).buflen.toNat = (flushFull u).buflen.toNat + 1 := by
  have := flushFull_room u h
  show ((flushFull u).buflen + 1).toNat = _
  rw [BitVec.toNat_add, show (1 : BitVec 8).toNat = 1 from rfl]
  omega

/-- The ranges of a hash in progress are kept by a byte. -/
theorem absorbByte_inProgress (u : B2bUnit) (x : Byte) (h : u.InProgress) : (absorbByte u x).InProgress where
  outlenPos := by simpa [absorbByte] using h.outlenPos
  outlenMax := by simpa [absorbByte] using h.outlenMax
  buflenMax := by
    rw [absorbByte_buflen u x h.buflenMax]
    have := flushFull_room u h.buflenMax
    omega
  f0Clear := by simpa [absorbByte] using h.f0Clear
  f1Clear := by simpa [absorbByte] using h.f1Clear
  counted := by
    have hc := h.counted
    show (flushFull u).t0.toNat % 128 = 0
    by_cases hf : u.buflen = 128
    · rw [flushFull_full u hf]
      simp only [compress_t0, addCount_t0, BitVec.toNat_add, BitVec.toNat_ofNat]
      omega
    · rw [flushFull_other u hf]; exact hc

theorem absorb_inProgress (xs : List Byte) (u : B2bUnit) (h : u.InProgress) : (absorb xs u).InProgress :=
  absorb_keeps _ absorbByte_inProgress xs u h

theorem initUnit_outlen (n : Nat) (h : n ≤ 64) : (initUnit n).outlen.toNat = n := by
  simp only [initUnit, BitVec.toNat_ofNat]; omega

theorem initUnit_inProgress (n : Nat) (h1 : 1 ≤ n) (h2 : n ≤ 64) : (initUnit n).InProgress where
  outlenPos := by rw [initUnit_outlen n h2]; exact h1
  outlenMax := by rw [initUnit_outlen n h2]; exact h2
  buflenMax := Nat.zero_le 128
  f0Clear := rfl
  f1Clear := rfl
  counted := rfl

/-! ## Digests -/

theorem flatMap_le64_length (ws : List Word) : (ws.flatMap le64).length = 8 * ws.length := by
  induction ws with
  | nil => rfl
  | cons w ws ih => simp only [List.flatMap_cons, List.length_append, le64_length, ih, List.length_cons]; omega

@[simp] theorem chainBytes_length (h : Vector Word 8) : (chainBytes h).length = 64 := by
  rw [chainBytes, flatMap_le64_length]; simp

theorem digest_length (u : B2bUnit) (h : u.outlen.toNat ≤ 64) : (digest u).length = u.outlen.toNat := by
  simp only [digest, List.length_take, chainBytes_length]; omega

theorem blake2b_length (n : Nat) (msg : List Byte) (h : n ≤ 64) : (blake2b n msg).length = n := by
  rw [blake2b, digest_length] <;> rw [absorb_outlen, initUnit_outlen n h]
  exact h

end Sys2Proof.Machine
end

