-- ==== Sys2Proof/Laws/State.lean ====
section
/-! SUPPORT. What each named update of the state does to each field: one lemma per field, so that no proof unfolds an
update. -/

namespace Sys2Proof.Machine

/-! ## `finish` -/

@[simp] theorem finish_cfg (c : BitVec 5) (s : State) : (finish c s).cfg = s.cfg := rfl
@[simp] theorem finish_b2b (c : BitVec 5) (s : State) : (finish c s).b2b = s.b2b := rfl
@[simp] theorem finish_eng (c : BitVec 5) (s : State) : (finish c s).eng = s.eng := rfl
@[simp] theorem finish_inb (c : BitVec 5) (s : State) : (finish c s).inb = s.inb := rfl
@[simp] theorem finish_outb (c : BitVec 5) (s : State) : (finish c s).outb = s.outb := rfl
@[simp] theorem finish_host (c : BitVec 5) (s : State) : (finish c s).host = s.host := rfl
@[simp] theorem finish_reg (c : BitVec 5) (s : State) :
    (finish c s).reg = { s.reg with err := c, status := statusBits c s.b2b.active } := rfl

/-! ## `writeResult` -/

@[simp] theorem writeResult_cfg (n : Nat) (D : List Byte) (s : State) : (writeResult n D s).cfg = s.cfg := rfl
@[simp] theorem writeResult_b2b (n : Nat) (D : List Byte) (s : State) : (writeResult n D s).b2b = s.b2b := rfl
@[simp] theorem writeResult_eng (n : Nat) (D : List Byte) (s : State) : (writeResult n D s).eng = s.eng := rfl
@[simp] theorem writeResult_inb (n : Nat) (D : List Byte) (s : State) : (writeResult n D s).inb = s.inb := rfl
@[simp] theorem writeResult_host (n : Nat) (D : List Byte) (s : State) : (writeResult n D s).host = s.host := rfl
@[simp] theorem writeResult_reg (n : Nat) (D : List Byte) (s : State) :
    (writeResult n D s).reg = { s.reg with outcnt := BitVec.ofNat 32 n } := rfl
@[simp] theorem writeResult_outb (n : Nat) (D : List Byte) (s : State) :
    (writeResult n D s).outb = Memory.writeList 0 (D.take n) 0 (Memory.zeroRange 0 s.cfg.outBytes s.outb) := rfl

/-! ## `zeroIn`, `clearUnit`, `zeroize` -/

@[simp] theorem zeroIn_cfg (s : State) : (zeroIn s).cfg = s.cfg := rfl
@[simp] theorem zeroIn_reg (s : State) : (zeroIn s).reg = s.reg := rfl
@[simp] theorem zeroIn_b2b (s : State) : (zeroIn s).b2b = s.b2b := rfl
@[simp] theorem zeroIn_eng (s : State) : (zeroIn s).eng = s.eng := rfl
@[simp] theorem zeroIn_outb (s : State) : (zeroIn s).outb = s.outb := rfl
@[simp] theorem zeroIn_host (s : State) : (zeroIn s).host = s.host := rfl
@[simp] theorem zeroIn_inb (s : State) : (zeroIn s).inb = Memory.zeroRange 0 s.cfg.inBytes s.inb := rfl

@[simp] theorem clearUnit_cfg (s : State) : (clearUnit s).cfg = s.cfg := rfl
@[simp] theorem clearUnit_reg (s : State) : (clearUnit s).reg = s.reg := rfl
@[simp] theorem clearUnit_b2b (s : State) : (clearUnit s).b2b = B2bUnit.cleared := rfl
@[simp] theorem clearUnit_eng (s : State) : (clearUnit s).eng = s.eng := rfl
@[simp] theorem clearUnit_inb (s : State) : (clearUnit s).inb = s.inb := rfl
@[simp] theorem clearUnit_outb (s : State) : (clearUnit s).outb = s.outb := rfl
@[simp] theorem clearUnit_host (s : State) : (clearUnit s).host = s.host := rfl

@[simp] theorem zeroize_cfg (n : Nat) (s : State) : (zeroize n s).cfg = s.cfg := rfl
@[simp] theorem zeroize_reg (n : Nat) (s : State) : (zeroize n s).reg = s.reg := rfl
@[simp] theorem zeroize_b2b (n : Nat) (s : State) : (zeroize n s).b2b = B2bUnit.cleared := rfl
@[simp] theorem zeroize_eng (n : Nat) (s : State) : (zeroize n s).eng = s.eng.zeroize n := rfl
@[simp] theorem zeroize_inb (n : Nat) (s : State) : (zeroize n s).inb = Memory.zeroRange 0 s.cfg.inBytes s.inb := rfl
@[simp] theorem zeroize_outb (n : Nat) (s : State) : (zeroize n s).outb = s.outb := rfl
@[simp] theorem zeroize_host (n : Nat) (s : State) : (zeroize n s).host = s.host := rfl
@[simp] theorem engine_zeroize_wm (n : Nat) (e : Engine) : (e.zeroize n).wm = Memory.zeroRange 0 n e.wm := rfl

/-! ## `derive` -/

@[simp] theorem derive_cfg (s : State) : (derive s).cfg = s.cfg := rfl
@[simp] theorem derive_b2b (s : State) : (derive s).b2b = s.b2b := rfl
@[simp] theorem derive_eng (s : State) : (derive s).eng = s.eng := rfl
@[simp] theorem derive_inb (s : State) : (derive s).inb = s.inb := rfl
@[simp] theorem derive_outb (s : State) : (derive s).outb = s.outb := rfl
@[simp] theorem derive_host (s : State) : (derive s).host = s.host := rfl

/-! ## The host port -/

@[simp] theorem answer_cfg (r : Reply) (s : State) : (answer r s).cfg = s.cfg := rfl
@[simp] theorem answer_reg (r : Reply) (s : State) : (answer r s).reg = s.reg := rfl
@[simp] theorem answer_b2b (r : Reply) (s : State) : (answer r s).b2b = s.b2b := rfl
@[simp] theorem answer_eng (r : Reply) (s : State) : (answer r s).eng = s.eng := rfl
@[simp] theorem answer_inb (r : Reply) (s : State) : (answer r s).inb = s.inb := rfl
@[simp] theorem answer_outb (r : Reply) (s : State) : (answer r s).outb = s.outb := rfl
@[simp] theorem answer_host (r : Reply) (s : State) :
    (answer r s).host = ⟨s.host.pending, r :: s.host.replies⟩ := rfl

@[simp] theorem pushCommand_pending (w : Word32) (s : State) :
    (pushCommand w s).host.pending = .writeReg cmdIndex w :: s.host.pending := rfl

/-! ## The engine -/

@[simp] theorem writeWM_wm (e : Engine) (i : Nat) (x : Block) :
    (e.writeWM i x).wm = Memory.write Block.zero e.wm i x := rfl
@[simp] theorem writeWM_h0buf (e : Engine) (i : Nat) (x : Block) : (e.writeWM i x).h0buf = e.h0buf := rfl
@[simp] theorem writeWM_addr (e : Engine) (i : Nat) (x : Block) : (e.writeWM i x).addr = e.addr := rfl
@[simp] theorem writeWM_inp (e : Engine) (i : Nat) (x : Block) : (e.writeWM i x).inp = e.inp := rfl
@[simp] theorem writeWM_zeroB (e : Engine) (i : Nat) (x : Block) : (e.writeWM i x).zeroB = e.zeroB := rfl
@[simp] theorem writeWM_blockC (e : Engine) (i : Nat) (x : Block) : (e.writeWM i x).blockC = e.blockC := rfl

end Sys2Proof.Machine
end

