-- ==== Sys2Proof/Laws/Commands.lean ====
section
/-! SUPPORT. Everything a command and a step can answer, said once: one inversion lemma each. -/

namespace Sys2Proof.Machine

theorem next_inj {s t : State} (h : (Host.Outcome.next s : Host.Outcome State Fault Refusal) = .next t) : s = t := by
  cases h; rfl

theorem exec_b2bInit_cases {n : Nat} {s t : State} (h : exec (.b2bInit n) s = .next t) :
    (badDigestLen n = true ∧ t = finish ErrKind.b2bOutlen.code s) ∨
    (badDigestLen n = false ∧ t = finish 0 { s with b2b := initUnit n }) := by
  simp only [exec, execB2bInit, raiseErr, complete] at h
  cases hb : badDigestLen n <;> simp only [hb, Bool.false_eq_true, if_false, if_true] at h <;> cases h <;> simp

theorem exec_b2bUpdate_cases {s t : State} (h : exec .b2bUpdate s = .next t) :
    (s.b2b.active = false ∧ t = finish ErrKind.b2bState.code s) ∨
    (s.b2b.active = true ∧ srcPastEnd s = true ∧ t = finish ErrKind.srcRange.code s) ∨
    (s.b2b.active = true ∧ srcPastEnd s = false ∧
      t = finish 0 { s with b2b := absorb (srcBytes s) s.b2b }) := by
  simp only [exec, execB2bUpdate, raiseErr, complete] at h
  cases ha : s.b2b.active <;> cases hp : srcPastEnd s <;>
    simp only [ha, hp, Bool.not_false, Bool.not_true, Bool.false_eq_true, if_false, if_true] at h <;> cases h <;> simp

theorem exec_b2bFinal_cases {s t : State} (h : exec .b2bFinal s = .next t) :
    (s.b2b.active = false ∧ t = finish ErrKind.b2bState.code s) ∨
    (s.b2b.active = true ∧
      t = finish 0 (clearUnit (writeResult s.b2b.outlen.toNat (digest s.b2b) s))) := by
  simp only [exec, execB2bFinal, raiseErr, complete] at h
  cases ha : s.b2b.active <;>
    simp only [ha, Bool.not_false, Bool.not_true, Bool.false_eq_true, if_false, if_true] at h <;> cases h <;> simp

theorem exec_b2bLong_cases {s t : State} (h : exec .b2bLong s = .next t) :
    (s.b2b.active = true ∧ t = finish ErrKind.b2bState.code s) ∨
    (s.b2b.active = false ∧ badLongLen s = true ∧ t = finish ErrKind.b2bOutlen.code s) ∨
    (s.b2b.active = false ∧ badLongLen s = false ∧ srcPastEnd s = true ∧ t = finish ErrKind.srcRange.code s) ∨
    (s.b2b.active = false ∧ badLongLen s = false ∧ srcPastEnd s = false ∧
      t = finish 0 (clearUnit (writeResult s.reg.outlen.toNat (hlong s.reg.outlen.toNat (srcBytes s)) s))) := by
  simp only [exec, execB2bLong, raiseErr, complete] at h
  cases ha : s.b2b.active <;> cases hb : badLongLen s <;> cases hp : srcPastEnd s <;>
    simp only [ha, hb, hp, Bool.false_eq_true, if_false, if_true] at h <;> cases h <;> simp

theorem exec_a2idHash_cases {s t : State} (h : exec .a2idHash s = .next t) :
    (s.b2b.active = true ∧ t = finish ErrKind.b2bState.code s) ∨
    (s.b2b.active = false ∧ ∃ k, validate s = some k ∧ t = finish k.code (zeroize 0 s)) ∨
    (s.b2b.active = false ∧ validate s = none ∧ overCapacity (derive s) = true ∧
      t = finish ErrKind.memoryAllocation.code (zeroize 0 (derive s))) ∨
    (s.b2b.active = false ∧ validate s = none ∧ overCapacity (derive s) = false ∧
      t = finish 0 (zeroize (derive s).reg.memblks.toNat (finalizeHash (derive s)))) := by
  simp only [exec, execA2idHash, raiseErr, complete] at h
  cases ha : s.b2b.active <;> cases hv : validate s <;> cases ho : overCapacity (derive s) <;>
    simp only [ha, hv, ho, Bool.false_eq_true, if_false, if_true] at h <;> cases h <;> simp

/-- What serving an access can answer. -/
theorem serve_cases {a : Access} {s t : State} (h : serve a s = .next t) :
    (∃ w, a = .writeReg cmdIndex w ∧ runWord w (writeReg s cmdIndex w) = .next t) ∨
    (∃ i v, a = .writeReg i v ∧ i ≠ cmdIndex ∧ t = writeReg s i v) ∨
    (∃ i, a = .readReg i ∧ t = answer (.word (readReg s i)) s) ∨
    (∃ o b, a = .writeIn o b ∧ t = writeInByte o b s) ∨
    (∃ o, a = .readOut o ∧ t = answer (.byte (readOutByte o s)) s) ∨
    (a = .reset ∧ t = resetEvent s) := by
  cases a with
  | writeReg i v =>
    by_cases hi : i = cmdIndex
    · subst hi; rw [serve, if_pos rfl] at h; exact .inl ⟨v, rfl, h⟩
    · rw [serve, if_neg hi] at h; cases h; exact .inr (.inl ⟨i, v, rfl, hi, rfl⟩)
  | readReg i => cases h; exact .inr (.inr (.inl ⟨i, rfl, rfl⟩))
  | writeIn o b => cases h; exact .inr (.inr (.inr (.inl ⟨o, b, rfl, rfl⟩)))
  | readOut o => cases h; exact .inr (.inr (.inr (.inr (.inl ⟨o, rfl, rfl⟩))))
  | reset => cases h; exact .inr (.inr (.inr (.inr (.inr ⟨rfl, rfl⟩))))

/-- What running a word can answer. -/
theorem runWord_cases {w : Word32} {s t : State} (h : runWord w s = .next t) :
    (∃ i, decode w = .ok i ∧ exec i s = .next t) ∨
    (∃ r, decode w = .error r ∧ t = finish ErrKind.cmdIllegal.code s) := by
  unfold runWord at h
  cases hd : decode w with
  | ok i => simp only [hd] at h; exact .inl ⟨i, rfl, h⟩
  | error r => simp only [hd, raiseErr] at h; cases h; exact .inr ⟨r, rfl, rfl⟩

/-- What a step can answer: nothing pending, or one access served. -/
theorem step_cases {s t : State} (h : step s = .next t) :
    (s.host.pending = [] ∧ t = s) ∨
    (∃ a rest, s.host.pending = a :: rest ∧ serve a { s with host := { s.host with pending := rest } } = .next t) := by
  unfold step serveNext at h
  cases hp : s.host.pending with
  | nil => simp only [hp] at h; cases h; exact .inl ⟨rfl, rfl⟩
  | cons a rest => simp only [hp] at h; exact .inr ⟨a, rest, rfl, h⟩

end Sys2Proof.Machine
end

