-- ==== Sys2Proof/Laws/Decode.lean ====
section
/-! SUPPORT. The decoder and the encoder as arithmetic on numbers. -/

namespace Sys2Proof.Laws

/-- The word `encode` makes, as a number. -/
theorem parts_toNat (imm op : BitVec 8) :
    (((0 : BitVec 16) ++ imm) ++ op).toNat = 256 * imm.toNat + op.toNat := by
  rw [BitVec.toNat_append, BitVec.toNat_append, ← Nat.shiftLeft_add_eq_or_of_lt op.isLt,
    ← Nat.shiftLeft_add_eq_or_of_lt imm.isLt, show (0 : BitVec 16).toNat = 0 from rfl,
    Nat.zero_shiftLeft, Nat.shiftLeft_eq]
  omega

/-- The three fields of a word, as numbers. -/
theorem fields_toNat (w : Word32) :
    (opField w).toNat = w.toNat % 256 ∧ (immField w).toNat = w.toNat / 256 % 256 ∧
    (rsvField w).toNat = w.toNat / 65536 := by
  have := w.isLt
  simp only [opField, immField, rsvField, BitVec.extractLsb'_toNat, Nat.shiftRight_eq_div_pow]
  norm_num
  omega

/-- The three fields of the word `encode` makes. -/
theorem fields_of_parts (imm op : BitVec 8) :
    rsvField (((0 : BitVec 16) ++ imm) ++ op) = 0 ∧ immField (((0 : BitVec 16) ++ imm) ++ op) = imm ∧
    opField (((0 : BitVec 16) ++ imm) ++ op) = op := by
  have hi := imm.isLt
  have ho := op.isLt
  refine ⟨BitVec.eq_of_toNat_eq ?_, BitVec.eq_of_toNat_eq ?_, BitVec.eq_of_toNat_eq ?_⟩
  · rw [(fields_toNat _).2.2, parts_toNat, show (0 : BitVec 16).toNat = 0 from rfl]; omega
  · rw [(fields_toNat _).2.1, parts_toNat]; omega
  · rw [(fields_toNat _).1, parts_toNat]; omega

/-- The word of a command, as a number. -/
theorem encode_toNat (i : Instr) : (encode i).toNat = 256 * (immediate i).toNat + (opcode i).toNat :=
  parts_toNat _ _

/-- The decoder reads the word as a number: the fields are quotients and remainders of it. -/
theorem decode_toNat (w : Word32) : decode w =
    if w.toNat / 65536 ≠ 0 then .error .reservedNonzero
    else match w.toNat % 256 with
      | 0x01 => .ok (.b2bInit (w.toNat / 256 % 256))
      | 0x02 => if w.toNat / 256 % 256 = 0 then .ok .b2bUpdate else .error .immediateNonzero
      | 0x03 => if w.toNat / 256 % 256 = 0 then .ok .b2bFinal else .error .immediateNonzero
      | 0x04 => if w.toNat / 256 % 256 = 0 then .ok .b2bLong else .error .immediateNonzero
      | 0x10 => if w.toNat / 256 % 256 = 0 then .ok .a2idHash else .error .immediateNonzero
      | _    => .error .opcodeUnassigned := by
  have h := fields_toNat w
  have h1 : rsvField w = 0 ↔ w.toNat / 65536 = 0 := by rw [← h.2.2, ← BitVec.toNat_inj]; rfl
  have h2 : immField w = 0 ↔ w.toNat / 256 % 256 = 0 := by rw [← h.2.1, ← BitVec.toNat_inj]; rfl
  unfold decode withoutImm
  rw [h.1]
  simp only [ne_eq, h1, h2, h.2.1] <;> rfl

end Sys2Proof.Laws
end

