-- ==== Sys2Proof/Laws/Memory.lean ====
section
/-! SUPPORT. The laws of memories: reads after writes, canonical form kept by every operation, which addresses an
operation can list. -/

namespace Sys2Proof.Machine.Memory

variable {α : Type} (d : α)

@[simp] theorem read_nil (a : Nat) : read d [] a = d := rfl

theorem read_cons (c : Nat × α) (m : Memory α) (a : Nat) :
    read d (c :: m) a = if a = c.1 then c.2 else read d m a := rfl

/-- An address no entry names reads as the space's zero. -/
theorem read_of_unlisted (m : Memory α) (a : Nat) (h : ∀ c ∈ m, c.1 ≠ a) : read d m a = d := by
  induction m with
  | nil => rfl
  | cons c m ih =>
    rw [read_cons, if_neg (fun e => h c (by simp) e.symm)]
    exact ih fun c' hc' => h c' (by simp [hc'])

/-! ## Zeroing a range -/

theorem mem_zeroRange (lo hi : Nat) (m : Memory α) (c : Nat × α) :
    c ∈ zeroRange lo hi m ↔ c ∈ m ∧ ¬(lo ≤ c.1 ∧ c.1 < hi) := by
  simp only [zeroRange, List.mem_filter, Bool.not_eq_true', Bool.and_eq_false_iff, decide_eq_false_iff_not, not_and_or]

theorem read_zeroRange (lo hi : Nat) (m : Memory α) (a : Nat) :
    read d (zeroRange lo hi m) a = if lo ≤ a ∧ a < hi then d else read d m a := by
  induction m with
  | nil => simp [zeroRange]
  | cons c m ih =>
    simp only [zeroRange, List.filter_cons] at ih ⊢
    by_cases hc : lo ≤ c.1 ∧ c.1 < hi
    · have : (!(decide (lo ≤ c.1) && decide (c.1 < hi))) = false := by simp [hc]
      rw [this, if_neg (by simp), ih, read_cons]
      by_cases ha : a = c.1 <;> simp [ha, hc]
    · have : (!(decide (lo ≤ c.1) && decide (c.1 < hi))) = true := by
        rw [Bool.not_eq_true', Bool.and_eq_false_iff, decide_eq_false_iff_not, decide_eq_false_iff_not]; omega
      rw [this, if_pos rfl, read_cons, ih, read_cons]
      by_cases ha : a = c.1 <;> simp [ha, hc]

/-- Zeroing the whole space a memory lists empties it. -/
theorem zeroRange_eq_nil (hi : Nat) (m : Memory α) (h : ∀ c ∈ m, c.1 < hi) : zeroRange 0 hi m = [] := by
  simp only [zeroRange, List.filter_eq_nil_iff]
  intro c hc
  simp [h c hc]

@[simp] theorem zeroRange_empty (m : Memory α) : zeroRange 0 0 m = m := by
  simp [zeroRange]

variable [DecidableEq α]

theorem wf_nil : wf d ([] : Memory α) := by simp [wf]

theorem wf_cons (c : Nat × α) (m : Memory α) :
    wf d (c :: m) ↔ (∀ c' ∈ m, c.1 < c'.1) ∧ c.2 ≠ d ∧ wf d m := by
  simp only [wf, List.map_cons, List.pairwise_cons, List.mem_map, List.mem_cons, forall_exists_index, and_imp,
    forall_apply_eq_imp_iff₂, forall_eq_or_imp]
  tauto

theorem wf_zeroRange (lo hi : Nat) (m : Memory α) (h : wf d m) : wf d (zeroRange lo hi m) := by
  refine ⟨h.1.sublist (List.Sublist.map _ List.filter_sublist), fun c hc => h.2 c ?_⟩
  exact ((mem_zeroRange lo hi m c).1 hc).1

/-! ## Writing one address -/

/-- Every entry after a write is an old one or the one written. -/
theorem mem_write (m : Memory α) (a : Nat) (x : α) (c : Nat × α) (h : c ∈ write d m a x) :
    c ∈ m ∨ (c = (a, x) ∧ x ≠ d) := by
  induction m with
  | nil => by_cases hx : x = d <;> simp_all [write]
  | cons b m ih =>
    obtain ⟨b, y⟩ := b
    simp only [write] at h
    split_ifs at h with h1 h2 h3 h4
    · exact .inl h
    · rcases List.mem_cons.1 h with h | h
      · exact .inr ⟨h, h2⟩
      · exact .inl h
    · exact .inl (List.mem_cons_of_mem _ h)
    · rcases List.mem_cons.1 h with h | h
      · exact .inr ⟨h, h4⟩
      · exact .inl (List.mem_cons_of_mem _ h)
    · rcases List.mem_cons.1 h with h | h
      · exact .inl (h ▸ List.mem_cons_self)
      · exact (ih h).imp_left (List.mem_cons_of_mem _)

theorem wf_write (m : Memory α) (a : Nat) (x : α) (h : wf d m) : wf d (write d m a x) := by
  induction m with
  | nil => by_cases hx : x = d <;> simp_all [write, wf]
  | cons b m ih =>
    obtain ⟨b, y⟩ := b
    have h' := (wf_cons d _ m).1 h
    simp only [write]
    split_ifs with h1 h2 h3 h4
    · exact h
    · refine (wf_cons d _ _).2 ⟨?_, h2, h⟩
      intro c hc
      rcases List.mem_cons.1 hc with rfl | hc
      · exact h1
      · exact h1.trans (h'.1 c hc)
    · exact h'.2.2
    · exact (wf_cons d _ _).2 ⟨fun c hc => h3 ▸ h'.1 c hc, h4, h'.2.2⟩
    · refine (wf_cons d _ _).2 ⟨?_, h'.2.1, ih h'.2.2⟩
      intro c hc
      rcases mem_write d m a x c hc with hc | ⟨rfl, -⟩
      · exact h'.1 c hc
      · show b < a; omega

/-- A write leaves every other address alone. -/
theorem read_write_other (m : Memory α) (a b : Nat) (x : α) (h : b ≠ a) :
    read d (write d m a x) b = read d m b := by
  induction m with
  | nil => by_cases hx : x = d <;> simp [write, hx, read_cons, h]
  | cons c m ih =>
    obtain ⟨c, y⟩ := c
    simp only [write]
    split_ifs with h1 h2 h3 h4
    · rfl
    · rw [read_cons, if_neg h]
    · rw [read_cons, if_neg (h3 ▸ h)]
    · rw [read_cons, read_cons, if_neg h, if_neg (h3 ▸ h)]
    · rw [read_cons, read_cons, ih]

/-- A read after a write to the same address gives the value written. -/
theorem read_write_same (m : Memory α) (a : Nat) (x : α) (h : wf d m) : read d (write d m a x) a = x := by
  induction m with
  | nil => by_cases hx : x = d <;> simp [write, hx, read_cons]
  | cons c m ih =>
    obtain ⟨c, y⟩ := c
    have h' := (wf_cons d _ m).1 h
    simp only [write]
    split_ifs with h1 h2 h3 h4
    · rw [h2]
      refine read_of_unlisted d _ a fun c' hc' => ?_
      rcases List.mem_cons.1 hc' with rfl | hc'
      · show c ≠ a; omega
      · have := h'.1 c' hc'; simp only at this; omega
    · rw [read_cons, if_pos rfl]
    · rw [h4]
      refine read_of_unlisted d _ a fun c' hc' => ?_
      have := h'.1 c' hc'; simp only at this; omega
    · rw [read_cons, if_pos rfl]
    · rw [read_cons, if_neg h3]
      exact ih h'.2.2

theorem read_write (m : Memory α) (a b : Nat) (x : α) (h : wf d m) :
    read d (write d m a x) b = if b = a then x else read d m b := by
  split_ifs with hb
  · rw [hb, read_write_same d m a x h]
  · exact read_write_other d m a b x hb

/-! ## Writing a run -/

theorem wf_writeList (xs : List α) (a : Nat) (m : Memory α) (h : wf d m) : wf d (writeList d xs a m) := by
  induction xs generalizing a m with
  | nil => exact h
  | cons x xs ih => exact ih (a + 1) _ (wf_write d m a x h)

theorem read_writeList (xs : List α) (a : Nat) (m : Memory α) (h : wf d m) (b : Nat) :
    read d (writeList d xs a m) b = if a ≤ b ∧ b < a + xs.length then xs.getD (b - a) d else read d m b := by
  induction xs generalizing a m with
  | nil => simp [writeList]
  | cons x xs ih =>
    rw [writeList, ih (a + 1) _ (wf_write d m a x h), read_write d m a b x h]
    rcases Nat.lt_trichotomy b a with hb | rfl | hb
    · rw [if_neg (by omega), if_neg (by omega), if_neg (by omega)]
    · rw [if_neg (by omega), if_pos rfl, if_pos (by simp)]; simp
    · have e : b - a = (b - (a + 1)) + 1 := by omega
      by_cases hl : b < a + (x :: xs).length
      · simp only [List.length_cons] at hl
        rw [if_pos (by omega), if_pos (by simp; omega), e]; simp
      · simp only [List.length_cons] at hl
        rw [if_neg (by omega), if_neg (by omega), if_neg (by simp; omega)]

/-- A run of writes leaves every address outside it alone, in any memory. -/
theorem read_writeList_other (xs : List α) (a : Nat) (m : Memory α) (b : Nat) (h : b < a ∨ a + xs.length ≤ b) :
    read d (writeList d xs a m) b = read d m b := by
  induction xs generalizing a m with
  | nil => rfl
  | cons x xs ih =>
    simp only [List.length_cons] at h
    rw [writeList, ih (a + 1) _ (by omega), read_write_other d m a b x (by omega)]

theorem mem_writeList (xs : List α) (a : Nat) (m : Memory α) (c : Nat × α) (h : c ∈ writeList d xs a m) :
    c ∈ m ∨ (a ≤ c.1 ∧ c.1 < a + xs.length) := by
  induction xs generalizing a m with
  | nil => exact .inl h
  | cons x xs ih =>
    rcases ih (a + 1) _ h with h | h
    · rcases mem_write d m a x c h with h | ⟨rfl, -⟩
      · exact .inl h
      · exact .inr (by simp)
    · simp only [List.length_cons]; exact .inr (by omega)

end Sys2Proof.Machine.Memory
end

