-- ==== Sys2Proof/Laws/Engine.lean ====
section
/-! SUPPORT. The Argon2id engine: what one block production, one address generation and one turn of the segment loop read
and write. -/

namespace Sys2Proof.Machine

/-! ## Blocks -/

@[simp] theorem Block.getElem_xor (x y : Block) (k : Nat) (h : k < 128) : (x.xor y)[k] = x[k] ^^^ y[k] := by
  simp [Block.xor]

@[simp] theorem Block.xor_zero (x : Block) : x.xor Block.zero = x := by
  ext k hk; simp

theorem Block.xor_comm (x y : Block) : x.xor y = y.xor x := by
  ext k hk; simp [BitVec.xor_comm]

theorem Block.xor_assoc (x y z : Block) : (x.xor y).xor z = x.xor (y.xor z) := by
  ext k hk; simp [BitVec.xor_assoc]

@[simp] theorem Block.xor_self (x : Block) : x.xor x = Block.zero := by
  ext k hk; simp

/-! ## Reading and writing WM -/

theorem readWM_writeWM (e : Engine) (i j : Nat) (x : Block) (h : Memory.wf Block.zero e.wm) :
    (e.writeWM i x).readWM j = if j = i then x else e.readWM j :=
  Memory.read_write Block.zero e.wm i j x h

theorem readWM_writeWM_other (e : Engine) (i j : Nat) (x : Block) (h : j ≠ i) :
    (e.writeWM i x).readWM j = e.readWM j :=
  Memory.read_write_other Block.zero e.wm i j x h

/-! ## Block production -/

/-- The block `produceBlock` gives. -/
theorem produceBlock_fst (prev ref : Block) (old : Option Block) (e : Engine) :
    (produceBlock prev ref old e).1 =
      match old with
      | none   => (ref.xor prev).xor (mixPasses (ref.xor prev))
      | some x => ((ref.xor prev).xor x).xor (mixPasses (ref.xor prev)) := by
  cases old <;> simp only [produceBlock]

@[simp] theorem produceBlock_wm (p r : Block) (o : Option Block) (e : Engine) : (produceBlock p r o e).2.wm = e.wm := by
  simp only [produceBlock]
@[simp] theorem produceBlock_addr (p r : Block) (o : Option Block) (e : Engine) : (produceBlock p r o e).2.addr = e.addr := by
  simp only [produceBlock]
@[simp] theorem produceBlock_inp (p r : Block) (o : Option Block) (e : Engine) : (produceBlock p r o e).2.inp = e.inp := by
  simp only [produceBlock]
@[simp] theorem produceBlock_zeroB (p r : Block) (o : Option Block) (e : Engine) : (produceBlock p r o e).2.zeroB = e.zeroB := by
  simp only [produceBlock]
@[simp] theorem produceBlock_blockC (p r : Block) (o : Option Block) (e : Engine) : (produceBlock p r o e).2.blockC = e.blockC := by
  simp only [produceBlock]
@[simp] theorem produceBlock_h0buf (p r : Block) (o : Option Block) (e : Engine) : (produceBlock p r o e).2.h0buf = e.h0buf := by
  simp only [produceBlock]
@[simp] theorem produceBlock_pos (p r : Block) (o : Option Block) (e : Engine) : (produceBlock p r o e).2.pos = e.pos := by
  simp only [produceBlock]

/-- The contents `fill_block` gives the target, from the contents before the write. -/
def filled (prev ref cur : Nat) (withXor : Bool) (e : Engine) : Block :=
  (produceBlock (e.readWM prev) (e.readWM ref) (if withXor then some (e.readWM cur) else none) e).1

theorem fillBlock_wm (prev ref cur : Nat) (x : Bool) (e : Engine) :
    (fillBlock prev ref cur x e).wm = Memory.write Block.zero e.wm cur (filled prev ref cur x e) := by
  simp only [fillBlock, filled, writeWM_wm, produceBlock_wm]

@[simp] theorem fillBlock_addr (p r c : Nat) (x : Bool) (e : Engine) : (fillBlock p r c x e).addr = e.addr := by
  simp [fillBlock, Engine.writeWM]
@[simp] theorem fillBlock_inp (p r c : Nat) (x : Bool) (e : Engine) : (fillBlock p r c x e).inp = e.inp := by
  simp [fillBlock, Engine.writeWM]
@[simp] theorem fillBlock_zeroB (p r c : Nat) (x : Bool) (e : Engine) : (fillBlock p r c x e).zeroB = e.zeroB := by
  simp [fillBlock, Engine.writeWM]
@[simp] theorem fillBlock_blockC (p r c : Nat) (x : Bool) (e : Engine) : (fillBlock p r c x e).blockC = e.blockC := by
  simp [fillBlock, Engine.writeWM]
@[simp] theorem fillBlock_h0buf (p r c : Nat) (x : Bool) (e : Engine) : (fillBlock p r c x e).h0buf = e.h0buf := by
  simp [fillBlock, Engine.writeWM]
@[simp] theorem fillBlock_pos (p r c : Nat) (x : Bool) (e : Engine) : (fillBlock p r c x e).pos = e.pos := by
  simp [fillBlock, Engine.writeWM]

/-! ## Address generation -/

@[simp] theorem nextAddresses_wm (e : Engine) : (nextAddresses e).wm = e.wm := by
  simp [nextAddresses]
@[simp] theorem nextAddresses_inp (e : Engine) : (nextAddresses e).inp = e.inp.set 6 (e.inp[6] + 1) := by
  simp [nextAddresses]
@[simp] theorem nextAddresses_zeroB (e : Engine) : (nextAddresses e).zeroB = e.zeroB := by
  simp [nextAddresses]
@[simp] theorem nextAddresses_blockC (e : Engine) : (nextAddresses e).blockC = e.blockC := by
  simp [nextAddresses]
@[simp] theorem nextAddresses_h0buf (e : Engine) : (nextAddresses e).h0buf = e.h0buf := by
  simp [nextAddresses]
@[simp] theorem nextAddresses_pos (e : Engine) : (nextAddresses e).pos = e.pos := by
  simp [nextAddresses]

/-! ## Allocation and the first blocks -/

@[simp] theorem allocate_wm (n : Nat) (e : Engine) : (allocate n e).wm = Memory.zeroRange 0 n e.wm := by
  simp only [allocate]

@[simp] theorem seed_wm (s : State) (e : Engine) : (seed s e).wm = e.wm := by
  simp only [seed]

@[simp] theorem seed_h0buf (s : State) (e : Engine) :
    (seed s e).h0buf = writeRun (blake2b 64 (seedMessage s)) 0 e.h0buf := by
  simp only [seed]

theorem firstBlock_wm (sh : Shape) (l counter : Nat) (e : Engine) :
    (firstBlock sh l counter e).wm = Memory.write Block.zero e.wm (l * sh.laneLen + counter)
      (Block.words (hlong 1024 (writeRun (le32 counter) 64 e.h0buf).toList)) := by
  simp only [firstBlock, writeWM_wm]

@[simp] theorem firstBlock_h0buf (sh : Shape) (l counter : Nat) (e : Engine) :
    (firstBlock sh l counter e).h0buf = writeRun (le32 counter) 64 e.h0buf := by
  simp only [firstBlock, writeWM_h0buf]

/-- The first blocks of a lane write WM at two indices, the first two of the lane. -/
theorem firstBlocks_wm (sh : Shape) (l : Nat) (e : Engine) :
    ∃ x y, (firstBlocks sh l e).wm =
      Memory.write Block.zero (Memory.write Block.zero e.wm (l * sh.laneLen) x) (l * sh.laneLen + 1) y := by
  simp only [firstBlocks, firstBlock_wm]
  exact ⟨_, _, rfl⟩

/-- The first block `counter` of a lane writes WM and `H0BUF` and nothing else. -/
theorem firstBlock_frame (sh : Shape) (l counter : Nat) (e : Engine) :
    ∃ w v, firstBlock sh l counter e = { e with wm := w, h0buf := v } := ⟨_, _, rfl⟩

/-- So do the two together. -/
theorem firstBlocks_frame (sh : Shape) (l : Nat) (e : Engine) :
    ∃ w v, firstBlocks sh l e = { e with wm := w, h0buf := v } := by
  obtain ⟨w, v, h0⟩ := firstBlock_frame sh l 0 { e with h0buf := writeRun (le32 l) 68 (writeRun (le32 0) 64 e.h0buf) }
  obtain ⟨w', v', h1⟩ := firstBlock_frame sh l 1 { e with wm := w, h0buf := v }
  exact ⟨w', v', by simp only [firstBlocks, h0, h1]⟩

theorem seedLanes_wm (s : State) (sh : Shape) (e : Engine) :
    (seedLanes s sh e).wm = (forUp (firstBlocks sh) sh.lanes 0 (seed s e)).wm := by
  simp only [seedLanes]

@[simp] theorem seedLanes_h0buf (s : State) (sh : Shape) (e : Engine) :
    (seedLanes s sh e).h0buf = Vector.replicate 72 0 := by
  simp only [seedLanes]

/-! ## One turn of the segment loop -/

@[simp] theorem setPosition_wm (p l s i : Nat) (e : Engine) : (setPosition p l s i e).wm = e.wm := rfl
@[simp] theorem setPosition_addr (p l s i : Nat) (e : Engine) : (setPosition p l s i e).addr = e.addr := rfl
@[simp] theorem setPosition_inp (p l s i : Nat) (e : Engine) : (setPosition p l s i e).inp = e.inp := rfl
@[simp] theorem setPosition_zeroB (p l s i : Nat) (e : Engine) : (setPosition p l s i e).zeroB = e.zeroB := rfl
@[simp] theorem setPosition_blockC (p l s i : Nat) (e : Engine) : (setPosition p l s i e).blockC = e.blockC := rfl
@[simp] theorem setPosition_h0buf (p l s i : Nat) (e : Engine) : (setPosition p l s i e).h0buf = e.h0buf := rfl

@[simp] theorem nextRand_wm (sh : Shape) (p l s i : Nat) (e : Engine) : (nextRand sh p l s i e).2.wm = e.wm := by
  unfold nextRand; split
  · split <;> simp
  · rfl
@[simp] theorem nextRand_blockC (sh : Shape) (p l s i : Nat) (e : Engine) :
    (nextRand sh p l s i e).2.blockC = e.blockC := by
  unfold nextRand; split
  · split <;> simp
  · rfl
@[simp] theorem nextRand_h0buf (sh : Shape) (p l s i : Nat) (e : Engine) :
    (nextRand sh p l s i e).2.h0buf = e.h0buf := by
  unfold nextRand; split
  · split <;> simp
  · rfl

/-- One turn writes WM at one index, the current block's. -/
theorem fillOne_wm (sh : Shape) (pass slice lane index : Nat) (e : Engine) :
    ∃ x, (fillOne sh pass slice lane index e).wm = Memory.write Block.zero e.wm (curIndex sh lane slice index) x := by
  simp only [fillOne, fillBlock_wm, nextRand_wm, setPosition_wm]
  exact ⟨_, rfl⟩

@[simp] theorem fillOne_blockC (sh : Shape) (p s l i : Nat) (e : Engine) : (fillOne sh p s l i e).blockC = e.blockC := by
  simp [fillOne]
@[simp] theorem fillOne_h0buf (sh : Shape) (p s l i : Nat) (e : Engine) : (fillOne sh p s l i e).h0buf = e.h0buf := by
  simp [fillOne]

@[simp] theorem startSegment_wm (sh : Shape) (p s l : Nat) (e : Engine) : (startSegment sh p s l e).wm = e.wm := by
  unfold startSegment; split <;> split <;> simp
@[simp] theorem startSegment_blockC (sh : Shape) (p s l : Nat) (e : Engine) :
    (startSegment sh p s l e).blockC = e.blockC := by
  unfold startSegment; split <;> split <;> simp
@[simp] theorem startSegment_h0buf (sh : Shape) (p s l : Nat) (e : Engine) :
    (startSegment sh p s l e).h0buf = e.h0buf := by
  unfold startSegment; split <;> split <;> simp

/-- The index of a position inside the region lies inside the region. -/
theorem curIndex_lt (sh : Shape) (lane slice index : Nat) (hl : lane < sh.lanes) (hs : slice < 4)
    (hi : index < sh.segLen) (hlen : sh.laneLen = 4 * sh.segLen) :
    curIndex sh lane slice index < sh.lanes * sh.laneLen := by
  have h1 : slice * sh.segLen + index < sh.laneLen := by
    have : slice * sh.segLen ≤ 3 * sh.segLen := Nat.mul_le_mul_right _ (by omega)
    omega
  have h2 : (lane + 1) * sh.laneLen ≤ sh.lanes * sh.laneLen := Nat.mul_le_mul_right _ hl
  rw [Nat.add_mul, Nat.one_mul] at h2
  unfold curIndex
  omega

end Sys2Proof.Machine
end

