-- ==== Sys2Proof/Laws/Loops.lean ====
section
/-! SUPPORT. Counted loops: invariants and relations carried through `forUp`. -/

namespace Sys2Proof.Machine

variable {σ τ : Type}

@[simp] theorem forUp_zero (body : Nat → σ → σ) (a : Nat) (s : σ) : forUp body 0 a s = s := rfl

theorem forUp_succ (body : Nat → σ → σ) (n a : Nat) (s : σ) :
    forUp body (n + 1) a s = forUp body n (a + 1) (body a s) := rfl

/-- The loop is the fold over its indices. -/
theorem forUp_eq_foldl (body : Nat → σ → σ) (n a : Nat) (s : σ) :
    forUp body n a s = (List.range' a n).foldl (fun s i => body i s) s := by
  induction n generalizing a s with
  | zero => rfl
  | succ n ih => rw [forUp_succ, List.range'_succ, List.foldl_cons, ih]

/-- What every turn keeps, the loop keeps. -/
theorem forUp_keeps (P : σ → Prop) (body : Nat → σ → σ) (n a : Nat) (s : σ)
    (h : ∀ i s, a ≤ i → i < a + n → P s → P (body i s)) (hs : P s) : P (forUp body n a s) := by
  induction n generalizing a s with
  | zero => exact hs
  | succ n ih =>
    exact ih (a + 1) _ (fun i s h1 h2 => h i s (by omega) (by omega)) (h a s (by omega) (by omega) hs)

/-- A property that changes from turn to turn: `P i` holds before turn `i`. -/
theorem forUp_advances (P : Nat → σ → Prop) (body : Nat → σ → σ) (n a : Nat) (s : σ)
    (h : ∀ i s, a ≤ i → i < a + n → P i s → P (i + 1) (body i s)) (hs : P a s) : P (a + n) (forUp body n a s) := by
  induction n generalizing a s with
  | zero => exact hs
  | succ n ih =>
    have := ih (a + 1) _ (fun i s h1 h2 => h i s (by omega) (by omega)) (h a s (by omega) (by omega) hs)
    rw [forUp_succ, show a + (n + 1) = a + 1 + n by omega]
    exact this

/-- Two loops whose turns keep a relation keep it. -/
theorem forUp_relates (R : σ → τ → Prop) (body : Nat → σ → σ) (body' : Nat → τ → τ) (n a : Nat) (s : σ) (t : τ)
    (h : ∀ i s t, a ≤ i → i < a + n → R s t → R (body i s) (body' i t)) (hs : R s t) :
    R (forUp body n a s) (forUp body' n a t) := by
  induction n generalizing a s t with
  | zero => exact hs
  | succ n ih =>
    exact ih (a + 1) _ _ (fun i s t h1 h2 => h i s t (by omega) (by omega)) (h a s t (by omega) (by omega) hs)

/-- The same for a relation that changes from turn to turn. -/
theorem forUp_relates_advances (R : Nat → σ → τ → Prop) (body : Nat → σ → σ) (body' : Nat → τ → τ) (n a : Nat) (s : σ)
    (t : τ) (h : ∀ i s t, a ≤ i → i < a + n → R i s t → R (i + 1) (body i s) (body' i t)) (hs : R a s t) :
    R (a + n) (forUp body n a s) (forUp body' n a t) := by
  induction n generalizing a s t with
  | zero => exact hs
  | succ n ih =>
    have := ih (a + 1) _ _ (fun i s t h1 h2 => h i s t (by omega) (by omega)) (h a s t (by omega) (by omega) hs)
    rw [forUp_succ, forUp_succ, show a + (n + 1) = a + 1 + n by omega]
    exact this

end Sys2Proof.Machine
end

