-- ==== Sys2Proof/Laws/PerInstr.lean ====
section
/-! SUPPORT. Per-instruction facts about encodings: the fields of a command's word are the fields R60 and R62 give it. -/

namespace Sys2Proof.Laws

/-- The fields of an instruction's word. -/
def EncodedFields.Statement (i : Instr) : Prop :=
  rsvField (encode i) = 0 ∧ immField (encode i) = immediate i ∧ opField (encode i) = opcode i

theorem EncodedFields.b2bInit (n : Nat) : EncodedFields.Statement (.b2bInit n) := fields_of_parts _ _
theorem EncodedFields.b2bUpdate : EncodedFields.Statement .b2bUpdate := fields_of_parts _ _
theorem EncodedFields.b2bFinal : EncodedFields.Statement .b2bFinal := fields_of_parts _ _
theorem EncodedFields.b2bLong : EncodedFields.Statement .b2bLong := fields_of_parts _ _
theorem EncodedFields.a2idHash : EncodedFields.Statement .a2idHash := fields_of_parts _ _

end Sys2Proof.Laws
end

