-- ==== Sys2Proof/Laws/Results.lean ====
section
/-! SUPPORT. What the shared operations that end a command leave: the STATUS bits, the result in OUT, the zeroized
memories. -/

namespace Sys2Proof.Machine

/-! ## STATUS -/

theorem statusDone_statusBits : ∀ (c : BitVec 5) (a : Bool), statusDone (statusBits c a) = true := by decide

theorem statusFail_statusBits : ∀ (c : BitVec 5) (a : Bool), statusFail (statusBits c a) = decide (c ≠ 0) := by decide

theorem statusB2bActive_statusBits : ∀ (c : BitVec 5) (a : Bool), statusB2bActive (statusBits c a) = a := by decide

/-! ## Windows of IN -/

theorem window_eq_map (s : State) (off len : Nat) :
    window s off len = (List.range len).map fun k => readIn s (off + k) := by
  simp [window, List.range'_eq_map_range, Function.comp_def]

@[simp] theorem window_length (s : State) (off len : Nat) : (window s off len).length = len := by
  simp [window]

/-! ## Results -/

/-- What OUT holds after a result of the announced length. -/
theorem readOut_writeResult (n : Nat) (D : List Byte) (s : State) (hw : Memory.wf 0 s.outb) (hD : D.length = n) (a : Nat) :
    readOut (writeResult n D s) a =
      if a < n then D.getD a 0 else if a < s.cfg.outBytes then 0 else readOut s a := by
  unfold readOut
  rw [writeResult_outb, Memory.read_writeList 0 _ _ _ (Memory.wf_zeroRange 0 _ _ _ hw), Memory.read_zeroRange, ← hD,
    List.take_length]
  simp only [Nat.zero_le, true_and, Nat.zero_add, Nat.sub_zero]

/-- Beyond OUT and beyond the result nothing changes, in any memory. -/
theorem readOut_writeResult_beyond (n : Nat) (D : List Byte) (s : State) (a : Nat) (h1 : s.cfg.outBytes ≤ a)
    (h2 : n ≤ a) : readOut (writeResult n D s) a = readOut s a := by
  unfold readOut
  rw [writeResult_outb, Memory.read_writeList_other, Memory.read_zeroRange, if_neg (by omega)]
  rw [List.length_take]; omega

theorem wf_writeResult (n : Nat) (D : List Byte) (s : State) (hw : Memory.wf 0 s.outb) :
    Memory.wf 0 (writeResult n D s).outb := by
  rw [writeResult_outb]
  exact Memory.wf_writeList 0 _ _ _ (Memory.wf_zeroRange 0 _ _ _ hw)

/-! ## Zeroization -/

theorem readIn_zeroize (n : Nat) (s : State) (a : Nat) :
    readIn (zeroize n s) a = if a < s.cfg.inBytes then 0 else readIn s a := by
  unfold readIn
  rw [zeroize_inb, Memory.read_zeroRange]; simp

theorem readWM_zeroize (n : Nat) (s : State) (j : Nat) :
    (zeroize n s).eng.readWM j = if j < n then Block.zero else s.eng.readWM j := by
  unfold Engine.readWM
  rw [zeroize_eng, engine_zeroize_wm, Memory.read_zeroRange]; simp

/-- A working memory that lists the zeroized blocks only leaves the cleared engine. -/
theorem engine_zeroize_cleared (n : Nat) (e : Engine) (h : ∀ c ∈ e.wm, c.1 < n) : e.zeroize n = Engine.cleared := by
  have : Memory.zeroRange 0 n e.wm = [] := by
    refine List.eq_nil_iff_forall_not_mem.mpr fun c hc => ?_
    rw [Memory.mem_zeroRange] at hc
    exact hc.2 ⟨Nat.zero_le _, h c hc.1⟩
  unfold Engine.zeroize; rw [this]; rfl

end Sys2Proof.Machine
end

