-- ==== Sys2Proof/Tests/Slice0.lean ====
section
/-! SUPPORT. The model's own tests: well-formedness, decoding, vectors of spec/95_test_vectors.md (named in each
docstring), and for every statement with hypotheses a state and operands that meet them all. -/

open Sys2Proof Sys2Proof.Machine Sys2Proof.Claims

namespace Sys2Proof.Tests

/-! ## Well-formedness -/

/-- R60: the operand field has eight bits. -/
theorem test_wf_b2bInit : (Instr.b2bInit 255).wf ∧ ¬ (Instr.b2bInit 256).wf := by decide

/-- R6: the suggested parameters meet every constraint. -/
theorem test_wf_config : Config.suggested.wf := by decide

/-- R6: one parameter set for each constraint it breaks. -/
theorem test_illformed_config :
    ∀ c ∈ [
      { Config.suggested with maxPwdlen := 2049 },
      { Config.suggested with inBytes := 2 ^ 32 },
      { Config.suggested with maxOutlen := 4097 },
      { Config.suggested with outBytes := 63, maxOutlen := 32 },
      { Config.suggested with outBytes := 2 ^ 32 },
      { Config.suggested with capBlocks := 7 },
      { Config.suggested with capBlocks := 2 ^ 32 },
      { Config.suggested with maxOutlen := 3 },
      { Config.suggested with maxSaltlen := 7 },
      { Config.suggested with maxTime := 0 },
      { Config.suggested with maxTime := 2 ^ 32 },
      { Config.suggested with maxMem := 7 },
      { Config.suggested with maxMem := 2 ^ 32 },
      { Config.suggested with maxLanes := 0 },
      { Config.suggested with maxLanes := 2 ^ 32 }],
      ¬ c.wf := by decide

/-- Canonical form refuses entries out of order, twice the same address, and an entry that reads as zero. -/
theorem test_illformed_memory :
    (Memory.wf (0 : Byte) [(3, 1), (7, 2)]) ∧ (¬ Memory.wf (0 : Byte) [(7, 1), (3, 2)]) ∧
    (¬ Memory.wf (0 : Byte) [(3, 1), (3, 2)]) ∧ (¬ Memory.wf (0 : Byte) [(3, 0)]) := by decide

/-! ## Decoding: words written bit by bit from spec/opcode_table.json, bit 31 first -/

/-- `b2b.init 64`: RSV, IMM = 64, OP = 0x01. -/
theorem test_decode_b2bInit : decode 0b00000000000000000100000000000001 = .ok (.b2bInit 64) := by decide
theorem test_decode_b2bInit_255 : decode 0b00000000000000001111111100000001 = .ok (.b2bInit 255) := by decide
theorem test_decode_b2bUpdate : decode 0b00000000000000000000000000000010 = .ok .b2bUpdate := by decide
theorem test_decode_b2bFinal : decode 0b00000000000000000000000000000011 = .ok .b2bFinal := by decide
theorem test_decode_b2bLong : decode 0b00000000000000000000000000000100 = .ok .b2bLong := by decide
theorem test_decode_a2idHash : decode 0b00000000000000000000000000010000 = .ok .a2idHash := by decide

/-- E1: the lowest and the highest bit of RSV. -/
theorem test_decode_reserved :
    decode 0x00010001 = .error .reservedNonzero ∧
    decode 0x00010002 = .error .reservedNonzero ∧
    decode 0x00010010 = .error .reservedNonzero ∧
    decode 0x80000002 = .error .reservedNonzero ∧
    decode 0xFFFFFFFF = .error .reservedNonzero := by
  refine ⟨?_, ?_, ?_, ?_, ?_⟩ <;> decide

/-- E1: IMM on each command without an operand. -/
theorem test_decode_immediate :
    decode 0x00000102 = .error .immediateNonzero ∧
    decode 0x00000103 = .error .immediateNonzero ∧
    decode 0x00008004 = .error .immediateNonzero ∧
    decode 0x00000110 = .error .immediateNonzero ∧
    decode 0x00000F10 = .error .immediateNonzero := by
  refine ⟨?_, ?_, ?_, ?_, ?_⟩ <;> decide

/-- E1: unassigned opcodes. -/
theorem test_decode_unassigned :
    decode 0x00000000 = .error .opcodeUnassigned ∧
    decode 0x00000100 = .error .opcodeUnassigned ∧
    decode 0x00000005 = .error .opcodeUnassigned ∧
    decode 0x00000006 = .error .opcodeUnassigned ∧
    decode 0x0000000F = .error .opcodeUnassigned ∧
    decode 0x00000011 = .error .opcodeUnassigned ∧
    decode 0x00000020 = .error .opcodeUnassigned ∧
    decode 0x000000FF = .error .opcodeUnassigned := by
  refine ⟨?_, ?_, ?_, ?_, ?_, ?_, ?_, ?_⟩ <;> decide

theorem test_encode :
    encode (.b2bInit 20) = 0x00001401 ∧ encode .b2bUpdate = 0x00000002 ∧ encode .b2bFinal = 0x00000003 ∧
    encode .b2bLong = 0x00000004 ∧ encode .a2idHash = 0x00000010 := by decide

theorem test_decodeTableWord :
    decodeTableWord 32 0x00004001 = some (.b2bInit 64) ∧ decodeTableWord 32 0x00000010 = some .a2idHash ∧
    decodeTableWord 32 0x00000102 = none := by decide

/-! ## States the tests and the witnesses use -/

/-- The machine after reset with accesses pending. -/
def withAccesses (as : List Access) : State := { State.reset with host := ⟨as, []⟩ }

/-- The registers DONE, FAIL, B2B_ACTIVE and ERR after a step. -/
def statusErr : Host.Outcome State Fault Refusal → Option (Nat × Nat)
  | .next t    => some (t.reg.status.toNat, t.reg.err.toNat)
  | .fault _   => none
  | .refused _ => none

/-- The state after a step. -/
def after : Host.Outcome State Fault Refusal → Option State
  | .next t    => some t
  | .fault _   => none
  | .refused _ => none

/-- A7, the good setting; IN holds "passwordsomesalt". -/
def good : State := { State.reset with
  reg := { Regs.reset with ctrl := 1, outlen := 32, pwdlen := 8, saltlen := 8, tCost := 1, mCost := 8, lanes := 1 }
  inb := [(0, 0x70), (1, 0x61), (2, 0x73), (3, 0x73), (4, 0x77), (5, 0x6f), (6, 0x72), (7, 0x64),
          (8, 0x73), (9, 0x6f), (10, 0x6d), (11, 0x65), (12, 0x73), (13, 0x61), (14, 0x6c), (15, 0x74)] }

/-- A hash of digest length 64 just begun, as `B2B_INIT 64` leaves the machine after reset. -/
def hashing : State := { State.reset with reg := { Regs.reset with cmd := 0x4001, status := 5 }, b2b := initUnit 64 }

/-- The source window of a state. -/
def withWindow (off len : Word32) (s : State) : State := { s with reg := { s.reg with srcOff := off, srcLen := len } }

/-- OUTLEN of a state. -/
def withOutlen (n : Word32) (s : State) : State := { s with reg := { s.reg with outlen := n } }

/-! ## The BLAKE2b unit -/

/-- B1, first, second and fourth row. -/
theorem test_mixG :
    mixG 5 6 ⟨1, 2, 3, 4⟩ = ⟨0x0000010000000c0e, 0x181c021802181806, 0x0c0e000c010c0003, 0x0c0e0000010c0000⟩ ∧
    mixG 0xffffffffffffffff 0xffffffffffffffff
      ⟨0xffffffffffffffff, 0xffffffffffffffff, 0xffffffffffffffff, 0xffffffffffffffff⟩ =
      ⟨0x000000fffffffdfc, 0xfbf801fbfe0403fd, 0xfdfc000200fdfffe, 0xfdfc000000fdffff⟩ ∧
    mixG 0 0 ⟨0x8000000000000000, 0x8000000000000000, 0, 0⟩ =
      ⟨0x0000008000000000, 0x0000010001000000, 0x0000000000800000, 0x0000000000800000⟩ := by decide

/-- B2: `h[0]` after an init. -/
theorem test_initUnit :
    (initUnit 1).h[0] = 0x6a09e667f2bdc909 ∧ (initUnit 20).h[0] = 0x6a09e667f2bdc91c ∧
    (initUnit 64).h[0] = 0x6a09e667f2bdc948 ∧ (initUnit 64).h[1] = 0xbb67ae8584caa73b := by decide

/-- B3. -/
theorem test_addCount :
    let sum (n : Nat) (a b : Word) : Word × Word :=
      let u := addCount n { B2bUnit.cleared with t0 := a, t1 := b }
      (u.t0, u.t1)
    sum 128 0xffffffffffffffc0 7 = (0x40, 8) ∧ sum 1 0xffffffffffffffff 0xffffffffffffffff = (0, 0) ∧
    sum 0 5 0 = (5, 0) := by decide

/-- B5, first row: twelve rounds, the last compression and the byte order of the digest. -/
theorem test_blake2b_abc :
    blake2b 64 [0x61, 0x62, 0x63] =
      leBytes 32 0xd1a2ffdb6fbb124bb7c45a68142f214ce9f6129fb697276a0d4d1c983fa580ba ++
      leBytes 32 0x239900d4ed8623b95a92f1dba88ad31895cc3345ded552c22d79ab2a39c5877d := by decide +kernel

/-- B7: a full buffer is compressed only when another byte comes. -/
theorem test_flushFull :
    (flushFull { B2bUnit.cleared with buflen := 127 }).buflen = 127 ∧
    (flushFull { B2bUnit.cleared with buflen := 127 }).t0 = 0 ∧
    (flushFull { B2bUnit.cleared with buflen := 128 }).buflen = 0 ∧
    (flushFull { B2bUnit.cleared with buflen := 128 }).t0 = 128 := by decide

/-! ## The mixing engine -/

/-- M1, rows 4 to 7 and 9. -/
theorem test_fBlaMka :
    fBlaMka 2 3 = 0x11 ∧ fBlaMka 0x00000000ffffffff 0x00000000ffffffff = 0xfffffffe00000000 ∧
    fBlaMka 0xffffffffffffffff 0xffffffffffffffff = 0xfffffffc00000000 ∧
    fBlaMka 0x0000000100000000 0x0000000100000000 = 0x0000000200000000 ∧
    fBlaMka 0x0123456789abcdef 0xfedcba9876543210 = 0x7f44f06fcac319df := by decide

/-- M2, first and third row. -/
theorem test_mixGB :
    mixGB ⟨1, 2, 3, 4⟩ = ⟨0x0000010000002d07, 0x5a0e02060e2a0606, 0x2d07000307150003, 0x2d07000001030000⟩ ∧
    mixGB ⟨0xffffffffffffffff, 0xffffffffffffffff, 0xffffffffffffffff, 0xffffffffffffffff⟩ =
      ⟨0x000003fbfffffb00, 0xe61bf809c845f607, 0xf30dfffb1bdd0003, 0xfb03fffffc04ffff⟩ := by decide

/-- M3: `P(0, 1, ..., 15)`, four of its words. -/
theorem test_permP :
    let v := permP (Vec16.ofFn fun k => BitVec.ofNat 64 k.val)
    v.v0 = 0x3bce1ccd56d0db35 ∧ v.v5 = 0xa5feebc3465becf6 ∧ v.v10 = 0xdbf94bf83b0da4d7 ∧
    v.v15 = 0x4c1b185e3a641fc4 := by decide +kernel

/-- M4, word 127: both passes over a whole block. -/
theorem test_produceBlock :
    (produceBlock (Vector.ofFn fun k => BitVec.ofNat 64 k.val)
      (Vector.ofFn fun k => BitVec.ofNat 64 (k.val * 0x0101010101010101)) none Engine.cleared).1[127] =
      0x74d711bc19fd1c09 := by decide +kernel

/-! ## Derivation and addressing -/

/-- A2: (memory_blocks, segment_length, lane_length). -/
theorem test_derive :
    ∀ r ∈ [(8, 1, 8, 2, 8), (11, 1, 8, 2, 8), (12, 1, 12, 3, 12), (37, 2, 32, 4, 16), (100, 3, 96, 8, 32),
        (65536, 4, 65536, 4096, 16384), (1001, 3, 996, 83, 332)],
      (memoryBlocks r.1 r.2.1, segmentLength r.1 r.2.1, laneLength r.1 r.2.1) = r.2.2 := by decide

/-- A1: the message of the seed digest and the digest. -/
theorem test_seedMessage :
    let s := derive { good with reg := { good.reg with tCost := 2, mCost := 65536 } }
    seedMessage s =
      [0x01, 0, 0, 0, 0x20, 0, 0, 0, 0, 0, 1, 0, 2, 0, 0, 0, 0x13, 0, 0, 0, 2, 0, 0, 0, 8, 0, 0, 0,
       0x70, 0x61, 0x73, 0x73, 0x77, 0x6f, 0x72, 0x64, 8, 0, 0, 0, 0x73, 0x6f, 0x6d, 0x65, 0x73, 0x61, 0x6c, 0x74,
       0, 0, 0, 0, 0, 0, 0, 0] ∧
    (blake2b 64 (seedMessage s)).take 8 = [0xad, 0x17, 0xc4, 0x58, 0xd2, 0xc7, 0x6e, 0x68] := by decide +kernel

/-- A shape with segment length `seg`, for the addressing rules. -/
def shapeOfSeg (seg lanes : Nat) : Shape := ⟨2, lanes, lanes * (4 * seg), seg, 4 * seg⟩

/-- A10, rows 2, 6, 7, 11, 12 and 15: the area, the relative position, the reference index. -/
theorem test_indexAlpha :
    let row (pass slice index : Nat) (same : Bool) (j1 : Word32) (seg area rel ri : Nat) : Prop :=
      let sh := shapeOfSeg seg 1
      (areaSize sh pass slice index same).toNat = area ∧
      (relPosition (areaSize sh pass slice index same) j1).toNat = rel ∧ indexAlpha sh pass slice index same j1 = ri
    row 0 0 3 true 4294967295 4 2 0 0 ∧ row 0 3 3 true 2147483648 4 14 10 10 ∧ row 1 0 0 true 0 4 11 10 14 ∧
    row 1 2 1 false 305419896 4 12 11 7 ∧ row 1 1 2 true 3735928559 16384 49153 11962 44730 ∧
    row 0 0 0 true 0 2 4294967295 4294967294 6 := by decide

/-- A9, rows 2, 13 and 15: two lanes, `cur`, `prev` and `ref`. -/
theorem test_blockIndices :
    let sh := shapeOfSeg 2 2
    (curIndex sh 0 1 1, prevIndex sh 0 1 1, refIndex sh 0 1 0 1 0x0a54f179c2aff03d) = (3, 2, 8) ∧
    (curIndex sh 0 0 0, prevIndex sh 0 0 0, refIndex sh 1 0 0 0 0xbea0f7d8eb18f7ce) = (0, 7, 2) ∧
    (curIndex sh 1 0 0, prevIndex sh 1 0 0, refIndex sh 1 0 1 0 0x684354715c7b4656) = (8, 15, 14) := by decide

/-! ## Commands and host accesses -/

/-- E1: STATUS and ERR after a command word just after reset. -/
theorem test_step_after_reset :
    ∀ r ∈ [((0x00004001 : Nat), 5, 0), (0x00000101, 5, 0), (0x00000001, 3, 18), (0x00004101, 3, 18), (0x00010001, 3, 16),
        (0x00000002, 3, 17), (0x00000003, 3, 17), (0x00000004, 3, 18), (0x00000010, 3, 1), (0x00000102, 3, 16)],
      statusErr (step (State.reset.withFetchWord 32 r.1)) = some (r.2.1, r.2.2) := by decide

/-- A7, rows 1, 2, 5, 7 to 17 and 19: the code of the first check that fails. -/
theorem test_validate :
    let code (f : Regs → Regs) : Option Nat := (validate { good with reg := f good.reg }).map fun k => k.code.toNat
    code id = none ∧ code (fun r => { r with ctrl := 0 }) = some 1 ∧
    code (fun r => { r with outlen := 3 }) = some 2 ∧ code (fun r => { r with outlen := 4097 }) = some 3 ∧
    code (fun r => { r with pwdlen := 2049 }) = some 4 ∧ code (fun r => { r with saltlen := 7 }) = some 5 ∧
    code (fun r => { r with saltlen := 2049 }) = some 6 ∧ code (fun r => { r with tCost := 0 }) = some 7 ∧
    code (fun r => { r with mCost := 7 }) = some 9 ∧
    code (fun r => { r with mCost := 0xFFFFFFFF, lanes := 0x20000000 }) = some 9 ∧
    code (fun r => { r with mCost := 8, lanes := 0x20000001 }) = some 9 ∧
    code (fun r => { r with lanes := 0 }) = some 11 ∧
    code (fun r => { r with mCost := 0xFFFFFFFF, lanes := 0x1000000 }) = some 12 := by decide

/-- A7, row 18: the request is larger than the memory; IN is zeroed. -/
theorem test_hash_too_large :
    let o := exec .a2idHash { good with reg := { good.reg with mCost := 131076 } }
    statusErr o = some (3, 13) ∧
    (after o).map (fun t => (t.inb, t.reg.memblks, t.reg.seglen, t.reg.lanelen)) = some ([], 131076, 32769, 131076) := by
  decide

/-- P3: the window errors of `B2B_LONG`; the sum is taken without wrap-around. -/
theorem test_long_window :
    statusErr (exec .b2bLong (withOutlen 32 (withWindow 4096 1 State.reset))) = some (3, 19) ∧
    statusErr (exec .b2bLong (withOutlen 32 (withWindow 0xFFFFFFFF 0xFFFFFFFF State.reset))) = some (3, 19) ∧
    statusErr (exec .b2bLong (withOutlen 4097 State.reset)) = some (3, 18) := by decide

/-- P2: with a hash in progress `B2B_LONG` and `A2ID_HASH` are refused and STATUS keeps bit 2. -/
theorem test_hash_in_progress :
    statusErr (exec .b2bLong hashing) = some (7, 17) ∧ statusErr (exec .a2idHash hashing) = some (7, 17) ∧
    statusErr (exec .b2bUpdate hashing) = some (5, 0) := by decide

/-- E3: CTRL keeps bit 0 only; STATUS and CAPBLKS ignore writes. -/
theorem test_writeReg :
    readReg (writeReg State.reset 0x03 0xFFFFFFFF) 0x03 = 1 ∧ (writeReg State.reset 0x01 0xFFFFFFFF).reg = Regs.reset ∧
    (writeReg State.reset 0x11 0).reg = Regs.reset ∧ (writeReg State.reset 0x13 1).reg = Regs.reset := by decide

/-- E2: the register map after reset. -/
theorem test_readReg_reset :
    (List.range 20).map (fun i => (readReg State.reset i).toNat) =
      [0, 0, 0, 0, 0, 0, 0, 0, 0, 0, 0, 0, 0, 0, 0, 0x13, 2, 0x20000, 0, 0] := by decide

/-- R44: the last byte of IN is written, the one after it is not. -/
theorem test_writeIn :
    (writeInByte 4095 7 State.reset).inb = [(4095, 7)] ∧ (writeInByte 4096 7 State.reset).inb = [] ∧
    (writeInByte 4095 0 (writeInByte 4095 7 State.reset)).inb = [] := by decide

/-- R47: a shorter result leaves nothing of a longer one. -/
theorem test_writeResult :
    (writeResult 1 [9] (writeResult 3 [1, 2, 3] State.reset)).outb = [(0, 9)] ∧
    (writeResult 1 [9] (writeResult 3 [1, 2, 3] State.reset)).reg.outcnt = 1 := by decide

/-- A read gives the host the value; the interface's machine is this one. -/
theorem test_core_step :
    core.step (withAccesses [.readReg 0x0F]) =
      .next { State.reset with host := ⟨[], [.word 0x13]⟩ } := rfl

/-! ## Witnesses: for each statement with hypotheses, a state and operands that meet them together -/

theorem test_witness_DecodeOfEncodeIsIdentity : (Instr.b2bInit 0).wf ∧ (Instr.b2bInit 255).wf ∧ Instr.a2idHash.wf := by
  decide

theorem test_witness_EncodeOfDecodeIsIdentity :
    decode 0x0000FF01 = .ok (.b2bInit 255) ∧ decode 0x00000010 = .ok .a2idHash := by decide

theorem test_witness_StepRunsTheCommandWritten :
    ((withAccesses [.writeReg 0 0x4001]).host.pending = .writeReg 0 0x4001 :: [] ∧ decode 0x4001 = .ok (.b2bInit 64)) ∧
    ((withAccesses [.writeReg 0 0x11]).host.pending = .writeReg 0 0x11 :: [] ∧
      decode 0x11 = .error .opcodeUnassigned) ∧
    (withAccesses [.readReg 0]).host.pending = .readReg 0 :: [] := by decide

/-- One word for each of the three clauses; the last is `b2b.final` with IMM = 1. -/
theorem test_witness_IllegalWordChangesOnlyCmdStatusErr :
    ((withAccesses [.writeReg 0 0x00010001]).host.pending = .writeReg 0 0x00010001 :: [] ∧
      (0x00010001 : Word32).toNat / 65536 ≠ 0) ∧
    ((withAccesses [.writeReg 0 0x05]).host.pending = .writeReg 0 0x05 :: [] ∧
      (0x05 : Word32).toNat % 256 ∉ [0x01, 0x02, 0x03, 0x04, 0x10]) ∧
    ((withAccesses [.writeReg 0 0x103]).host.pending = .writeReg 0 0x103 :: [] ∧
      (0x103 : Word32).toNat % 256 ≠ 0x01 ∧ (0x103 : Word32).toNat / 256 % 256 ≠ 0) := by decide

theorem test_witness_NothingChangesWithoutHostAccess : State.reset.host.pending = [] := rfl

theorem test_witness_HostReadsAreFreeOfSideEffects :
    (withAccesses [.readReg 1, .readReg 1]).host.pending = .readReg 1 :: .readReg 1 :: [] ∧
    (withAccesses [.readOut 4095, .readOut 4095]).host.pending = .readOut 4095 :: .readOut 4095 :: [] := ⟨rfl, rfl⟩

theorem test_witness_HostReadsTheRegisterMap :
    (withAccesses [.readReg 0x12]).host.pending = .readReg 0x12 :: [] ∧
    (withAccesses [.readReg 0x13]).host.pending = .readReg 0x13 :: [] := ⟨rfl, rfl⟩

theorem test_witness_WriteToReadOnlyRegisterIsIgnored :
    0x12 ∈ [0x01, 0x02, 0x0C, 0x0D, 0x0E, 0x0F, 0x10, 0x11, 0x12] ∧
    (withAccesses [.writeReg 0x12 1]).host.pending = .writeReg 0x12 1 :: [] := by decide

theorem test_witness_UnmappedRegisterReadsZeroAndIgnoresWrites :
    0x13 ≤ 0x13 ∧ (withAccesses [.readReg 0x13]).host.pending = .readReg 0x13 :: [] ∧
    (withAccesses [.writeReg 0x13 1]).host.pending = .writeReg 0x13 1 :: [] := by decide

theorem test_witness_OperandRegisterWriteChangesThatRegisterOnly :
    (0x03 ≤ 0x03 ∧ 0x03 ≤ 0x0B ∧ (withAccesses [.writeReg 0x03 3]).host.pending = .writeReg 0x03 3 :: []) ∧
    (0x03 ≤ 0x0B ∧ 0x0B ≤ 0x0B ∧ (withAccesses [.writeReg 0x0B 3]).host.pending = .writeReg 0x0B 3 :: []) := by decide

/-- The last offset of the buffer and the first beyond it. -/
theorem test_witness_HostBufferAccesses :
    Memory.wf 0 (withAccesses [.writeIn 4095 7]).inb ∧
    (withAccesses [.writeIn 4095 7]).host.pending = .writeIn 4095 7 :: [] ∧
    (withAccesses [.writeIn 4096 7]).host.pending = .writeIn 4096 7 :: [] ∧
    (withAccesses [.readOut 4095]).host.pending = .readOut 4095 :: [] ∧
    (withAccesses [.readOut 4096]).host.pending = .readOut 4096 :: [] := by decide

/-- Two machines that differ in IN, in the unit and in the engine. -/
theorem test_witness_InternalStateCannotBeRead :
    let s := withAccesses [.readReg 2]
    let s' := { s with inb := [(0, 1)], b2b := initUnit 64, eng := { s.eng with pos := ⟨1, 0, 0, 0⟩ } }
    s.host.pending = .readReg 2 :: [] ∧ s'.host.pending = .readReg 2 :: [] ∧ s.cfg = s'.cfg ∧ s.reg = s'.reg ∧
    s.outb = s'.outb ∧ s.host.replies = s'.host.replies ∧ (∃ t, step s = .next t) ∧ (∃ t', step s' = .next t') :=
  ⟨rfl, rfl, rfl, rfl, rfl, rfl, ⟨_, rfl⟩, ⟨_, rfl⟩⟩

theorem test_witness_ResetEventReachesTheResetState :
    (withAccesses [.reset, .readReg 1]).host.pending = .reset :: [.readReg 1] := rfl

theorem test_witness_CounterIncrementIs128Bit : 128 ≤ 128 ∧ 0 ≤ 128 := by decide

/-- The lengths at which the two clauses meet. -/
theorem test_witness_InitStartsAHash :
    (1 ≤ 1 ∧ 1 ≤ 64) ∧ (1 ≤ 64 ∧ 64 ≤ 64) ∧ (0 = 0 ∨ 64 < 0) ∧ (65 = 0 ∨ 64 < 65) := by decide

/-- No hash in progress; a window one byte past the end; the window that ends at the end. -/
theorem test_witness_UpdateAbsorbsTheSourceWindow :
    State.reset.b2b.active = false ∧
    ((withWindow 4095 2 hashing).b2b.active = true ∧ ¬ SrcInRange (withWindow 4095 2 hashing)) ∧
    ((withWindow 4095 1 hashing).b2b.active = true ∧ SrcInRange (withWindow 4095 1 hashing)) := by
  unfold SrcInRange; decide

theorem test_witness_AbsorbedBytesAreBufferedAndCounted :
    (1 ≤ 1 ∧ 1 ≤ 64) ∧ (1 ≤ 64 ∧ 64 ≤ 64) ∧ ([] : List Byte).length = 0 ∧
    (0 < ([7] : List Byte).length ∧ 0 < 128 ∧ 0 < (absorb [7] (initUnit 64)).buflen.toNat) := by decide

theorem test_witness_TwoUpdatesAreOneOfTheJoinedWindow :
    4000 + 95 + 1 ≤ hashing.cfg.inBytes ∧ hashing.cfg.inBytes < 2 ^ 32 ∧ hashing.b2b.active = true ∧
    ∃ s1, exec .b2bUpdate (withWindow (BitVec.ofNat 32 4000) (BitVec.ofNat 32 95) hashing) = .next s1 :=
  ⟨by decide, by decide, rfl, ⟨_, rfl⟩⟩

theorem test_witness_BlockFormOfAbsorbAgrees : ({ B2bUnit.cleared with buflen := 128 } : B2bUnit).buflen.toNat ≤ 128 := by
  decide

/-- The machine after `B2B_INIT 64` meets the invariant with a hash in progress. -/
theorem test_inv_hashing : hashing.Inv where
  cfgWf    := by decide
  inWf     := by decide
  inRange  := by decide
  outWf    := by decide
  outTail  := by decide
  outFits  := by decide
  engine   := rfl
  unitIdle := fun h => by cases h
  unitBusy := fun _ => ⟨by decide, by decide, by decide, rfl, rfl, by decide⟩
  fail     := by decide
  busyBit  := by decide
  done     := by decide
  errCode  := .inl rfl
  laneLen  := by decide
  memBlks  := ⟨0, rfl⟩

/-- The machine after a command turned away (code 17) with no hash in progress. -/
def refusedOnce : State := { State.reset with reg := { Regs.reset with cmd := 3, status := 3, err := 17 } }

theorem test_inv_refusedOnce : refusedOnce.Inv where
  cfgWf    := by decide
  inWf     := by decide
  inRange  := by decide
  outWf    := by decide
  outTail  := by decide
  outFits  := by decide
  engine   := rfl
  unitIdle := fun _ => rfl
  unitBusy := fun h => by cases h
  fail     := by decide
  busyBit  := by decide
  done     := by decide
  errCode  := .inr ⟨.b2bState, rfl⟩
  laneLen  := by decide
  memBlks  := ⟨0, rfl⟩

theorem test_witness_FinalDeliversTheDigestAndClearsTheUnit :
    (hashing.Inv ∧ hashing.b2b.active = true) ∧ (refusedOnce.Inv ∧ refusedOnce.b2b.active = false) :=
  ⟨⟨test_inv_hashing, rfl⟩, ⟨test_inv_refusedOnce, rfl⟩⟩

theorem test_witness_InitUpdateFinalComputeBlake2b :
    1 ≤ 64 ∧ 64 ≤ 64 ∧ Memory.wf 0 hashing.outb ∧ hashing.b2b = absorb [] (initUnit 64) ∧ SrcInRange hashing := by
  refine ⟨by decide, by decide, by decide, rfl, ?_⟩
  unfold SrcInRange; decide

theorem test_witness_LongHashHasTheRequestedLength :
    (1 ≤ 1 ∧ 1 ≤ 2 ^ 32 - 1 ∧ 1 ≤ 64) ∧ (1 ≤ 64 ∧ 64 ≤ 2 ^ 32 - 1 ∧ 64 ≤ 64) ∧
    (1 ≤ 2 ^ 32 - 1 ∧ 2 ^ 32 - 1 ≤ 2 ^ 32 - 1) := by decide

theorem test_witness_LongHashIsAChainOfHalfDigests :
    (64 < 65 ∧ 65 ≤ 2 ^ 32 - 1) ∧ (64 < 2 ^ 32 - 1 ∧ 2 ^ 32 - 1 ≤ 2 ^ 32 - 1) := by decide

/-- A hash in progress; OUTLEN 0 and 4097; OUTLEN 4096 with a window past the end; OUTLEN 4096 and 1 in range. -/
theorem test_witness_LongDeliversTheLongHash :
    Memory.wf 0 State.reset.outb ∧ hashing.b2b.active = true ∧
    ((withOutlen 0 State.reset).b2b.active = false ∧ (withOutlen 0 State.reset).reg.outlen.toNat = 0) ∧
    ((withOutlen 4097 State.reset).b2b.active = false ∧
      (withOutlen 4097 State.reset).cfg.outBytes < (withOutlen 4097 State.reset).reg.outlen.toNat) ∧
    (let s := withOutlen 4096 (withWindow 4096 1 State.reset)
     s.b2b.active = false ∧ 1 ≤ s.reg.outlen.toNat ∧ s.reg.outlen.toNat ≤ s.cfg.outBytes ∧ ¬ SrcInRange s) ∧
    (let s := withOutlen 4096 (withWindow 4096 0 State.reset)
     s.b2b.active = false ∧ 1 ≤ s.reg.outlen.toNat ∧ s.reg.outlen.toNat ≤ s.cfg.outBytes ∧ SrcInRange s) := by
  unfold SrcInRange; decide

/-- `good` with its registers changed by `f` and the largest values of the parameters lowered, so that every one of the
twelve checks can fail. -/
def smallLimits (f : Regs → Regs) : State :=
  { good with cfg := { good.cfg with maxTime := 2, maxMem := 64, maxLanes := 4 }, reg := f good.reg }

/-- Each code at the boundary of its check. -/
theorem test_witness_HashReportsTheFirstFailingCheck :
    (smallLimits id).b2b.active = false ∧
    firstFailure (smallLimits fun r => { r with ctrl := 0 }) = some 1 ∧
    firstFailure (smallLimits fun r => { r with outlen := 3 }) = some 2 ∧
    firstFailure (smallLimits fun r => { r with outlen := 4097 }) = some 3 ∧
    firstFailure (smallLimits fun r => { r with pwdlen := 2049 }) = some 4 ∧
    firstFailure (smallLimits fun r => { r with saltlen := 7 }) = some 5 ∧
    firstFailure (smallLimits fun r => { r with saltlen := 2049 }) = some 6 ∧
    firstFailure (smallLimits fun r => { r with tCost := 0 }) = some 7 ∧
    firstFailure (smallLimits fun r => { r with tCost := 3 }) = some 8 ∧
    firstFailure (smallLimits fun r => { r with mCost := 7 }) = some 9 ∧
    firstFailure (smallLimits fun r => { r with mCost := 65 }) = some 10 ∧
    firstFailure (smallLimits fun r => { r with lanes := 0 }) = some 11 ∧
    firstFailure (smallLimits fun r => { r with lanes := 5, mCost := 40 }) = some 12 := by decide

/-- One block more than the installed memory holds, rounded to a multiple of four. -/
theorem test_witness_HashReportsMissingMemory :
    let s := { good with reg := { good.reg with mCost := 131076 } }
    s.b2b.active = false ∧ firstFailure s = none ∧ s.cfg.capBlocks < blocksOf s := by decide

theorem test_witness_DeriveRoundsMemoryDown : 1 ≤ good.reg.lanes.toNat ∧ 8 * good.reg.lanes.toNat ≤ good.reg.mCost.toNat := by
  decide

/-- The good setting, and the largest number of lanes its memory cost allows. -/
theorem test_witness_DerivedSizesAreBounded :
    validate good = none ∧ validate { good with reg := { good.reg with mCost := 0xFFFFFFFF, lanes := 0xFFFFFF } } = none := by
  decide

theorem test_witness_FillBlockWritesTheTargetOnly : Memory.wf Block.zero Engine.cleared.wm := ⟨List.Pairwise.nil, nofun⟩

theorem test_witness_FillBlockOfEqualBlocks :
    Memory.wf Block.zero Engine.cleared.wm ∧ Engine.cleared.readWM 1 = Engine.cleared.readWM 0 :=
  ⟨⟨List.Pairwise.nil, nofun⟩, rfl⟩

theorem test_witness_NextAddressesMixesTheInputTwice : Engine.cleared.zeroB = Block.zero := rfl

theorem test_witness_BlockBytesRoundTrip : (List.replicate 1024 (1 : Byte)).length = 1024 := List.length_replicate

/-- The empty window; the smallest; the largest of the clause about the largest `J1`. -/
theorem test_witness_WindowMapping :
    (0 : Word32) = 0 ∧ 1 ≤ (1 : Word32).toNat ∧
    (1 ≤ (0x80000000 : Word32).toNat ∧ (0x80000000 : Word32).toNat ≤ 2 ^ 31) := by
  decide

/-- The shape of two lanes with two blocks a segment. -/
theorem test_shapeOk : ShapeOk (shapeOfSeg 2 2) where
  lanes  := by decide
  seg    := by decide
  lane   := rfl
  blocks := rfl
  bound  := by decide

theorem test_positionOk_first : PositionOk (shapeOfSeg 2 2) 0 1 0 0 := ⟨by decide, by decide, by decide, by decide⟩
theorem test_positionOk_last : PositionOk (shapeOfSeg 2 2) 1 3 1 1 := ⟨by decide, by decide, by decide, by decide⟩

/-- The first and the last position; the second with a reference in the other lane. -/
theorem test_witness_ReferenceIsInBoundsAndNeverAliases :
    ShapeOk (shapeOfSeg 2 2) ∧ PositionOk (shapeOfSeg 2 2) 0 1 0 0 ∧ PositionOk (shapeOfSeg 2 2) 1 3 1 1 ∧
    refLane (shapeOfSeg 2 2) 1 3 1 0 ≠ 1 := ⟨test_shapeOk, test_positionOk_first, test_positionOk_last, by decide⟩

theorem test_witness_SameLaneWindowEndsBeforeThePreviousBlock :
    ShapeOk (shapeOfSeg 2 2) ∧ PositionOk (shapeOfSeg 2 2) 0 1 0 0 ∧ PositionOk (shapeOfSeg 2 2) 1 3 1 1 :=
  ⟨test_shapeOk, test_positionOk_first, test_positionOk_last⟩

theorem test_witness_FirstPassKeepsTheSeedBlocks : ShapeOk (shapeOfSeg 2 2) ∧ 1 < (shapeOfSeg 2 2).lanes :=
  ⟨test_shapeOk, by decide⟩

theorem test_witness_FillStaysInsideTheRegion : ShapeOk (shapeOfSeg 2 2) ∧ Memory.wf Block.zero Engine.cleared.wm :=
  ⟨test_shapeOk, ⟨List.Pairwise.nil, nofun⟩⟩

/-- One lane and two lanes; the last index that belongs to no lane's first blocks and the first beyond the region. -/
theorem test_witness_SeedLanesFillTheFirstBlocks :
    (validate good = none ∧ 0 < good.reg.lanes.toNat) ∧
    (let s := { good with reg := { good.reg with mCost := 17, lanes := 2 } }
     validate s = none ∧ 1 < s.reg.lanes.toNat ∧
     ∀ j ∈ [7, 15, 16], ∀ l, l < s.reg.lanes.toNat →
       j ≠ l * (derive s).reg.lanelen.toNat ∧ j ≠ l * (derive s).reg.lanelen.toNat + 1) ∧
    Memory.wf Block.zero Engine.cleared.wm :=
  ⟨by decide, by decide, ⟨List.Pairwise.nil, nofun⟩⟩

/-- The segments on both sides of each boundary: pass 0 and pass 1, slice 1 and slice 2, slice 0 and slice 1. -/
theorem test_witness_StartSegmentSetsTheInputBlock :
    (¬ (0 = 0 ∧ 2 < 2) ∧ ¬ (1 = 0 ∧ 0 < 2)) ∧ (0 = 0 ∧ 0 < 2 ∧ 0 = 0) ∧ (0 = 0 ∧ 1 < 2 ∧ 1 = 1) := by decide

/-- A turn that regenerates the addresses (slice 1, index 0), one that uses them only (slice 0, index 2), one whose value
comes from the previous block (slice 2), and the last one of a later pass. -/
theorem test_witness_OneTurnProducesTheBlock :
    ShapeOk (shapeOfSeg 3 2) ∧ PositionOk (shapeOfSeg 3 2) 0 1 0 0 ∧ PositionOk (shapeOfSeg 3 2) 0 0 1 2 ∧
    PositionOk (shapeOfSeg 3 2) 0 2 0 0 ∧ PositionOk (shapeOfSeg 3 2) 1 3 1 2 ∧ Memory.wf Block.zero Engine.cleared.wm :=
  ⟨⟨by decide, by decide, rfl, rfl, by decide⟩, ⟨by decide, by decide, by decide, by decide⟩,
    ⟨by decide, by decide, by decide, by decide⟩, ⟨by decide, by decide, by decide, by decide⟩,
    ⟨by decide, by decide, by decide, by decide⟩, ⟨List.Pairwise.nil, nofun⟩⟩

/-- Also the segments of one pass over one lane in their order, and how many turns each has with two blocks a segment. -/
theorem test_witness_FillRunsTheSegmentsInOrder :
    ShapeOk (shapeOfSeg 2 2) ∧ 1 ≤ (shapeOfSeg 2 2).passes ∧
    segments ⟨1, 1, 8, 2, 8⟩ = [(0, 0, 0), (0, 1, 0), (0, 2, 0), (0, 3, 0)] ∧
    (segments ⟨1, 1, 8, 2, 8⟩).map (fun x => 2 - firstOf x.1 x.2.1) = [0, 2, 2, 2] :=
  ⟨test_shapeOk, by decide, by decide, by decide⟩

theorem test_witness_FinalBlockXorsTheLastBlocks :
    1 ≤ (shapeOfSeg 2 1).lanes ∧ 1 ≤ (shapeOfSeg 2 1).laneLen ∧ 1 ≤ (shapeOfSeg 2 2).lanes := by decide

theorem test_accepted_good : Accepted good := ⟨rfl, by decide, by decide⟩

theorem test_witness_HashDeliversTheResult : Accepted good ∧ Memory.wf 0 good.outb := ⟨test_accepted_good, by decide⟩

theorem test_witness_HashLeavesNoSecret :
    (good.b2b.active = false ∧ ∃ t, exec .a2idHash good = .next t) ∧
    (State.reset.b2b.active = false ∧ ∃ t, exec .a2idHash State.reset = .next t ∧ t.reg.err ≠ 0) :=
  ⟨⟨rfl, ⟨_, rfl⟩⟩, ⟨rfl, ⟨_, rfl, by decide⟩⟩⟩

/-- A second machine with another memory cost that rounds to the same size, and another state of the engine. -/
def goodToo : State :=
  { good with reg := { good.reg with mCost := 11, status := 3, err := 17 }
              eng := { good.eng with pos := ⟨1, 0, 3, 1⟩ } }

theorem test_witness_ResultDependsOnTheOperandsOnly :
    Accepted good ∧ Accepted goodToo ∧ Memory.wf 0 good.outb ∧ Memory.wf 0 goodToo.outb ∧
    Memory.wf Block.zero good.eng.wm ∧ Memory.wf Block.zero goodToo.eng.wm ∧
    good.cfg.h0MemSource = goodToo.cfg.h0MemSource ∧ good.reg.tCost = goodToo.reg.tCost ∧
    good.reg.lanes = goodToo.reg.lanes ∧ good.reg.outlen = goodToo.reg.outlen ∧ good.reg.pwdlen = goodToo.reg.pwdlen ∧
    good.reg.saltlen = goodToo.reg.saltlen ∧ blocksOf good = blocksOf goodToo ∧
    (good.cfg.h0MemSource = .requested → good.reg.mCost = goodToo.reg.mCost) ∧
    (∀ a, a < good.reg.pwdlen.toNat + good.reg.saltlen.toNat → readIn good a = readIn goodToo a) :=
  ⟨test_accepted_good, ⟨rfl, by decide, by decide⟩, by decide, by decide, ⟨List.Pairwise.nil, nofun⟩,
    ⟨List.Pairwise.nil, nofun⟩, rfl, rfl, rfl, rfl, rfl, rfl, by decide, nofun, fun _ _ => rfl⟩

theorem test_witness_EveryCommandReportsItsOutcome : ∃ t, exec .a2idHash State.reset = .next t := ⟨_, rfl⟩

theorem test_witness_WrongUnitStateIsRefused : State.reset.b2b.active = false ∧ hashing.b2b.active = true := ⟨rfl, rfl⟩

theorem test_witness_CommandsKeepTheOperandRegisters :
    ∃ t, exec .b2bFinal State.reset = .next t ∧ t.reg.err ≠ 0 ∧ 16 ≤ t.reg.err.toNat :=
  ⟨_, rfl, by decide, by decide⟩

theorem test_witness_InitAndUpdateFrame :
    (∃ t, exec (.b2bInit 64) State.reset = .next t) ∧ (∃ t, exec .b2bUpdate hashing = .next t) := ⟨⟨_, rfl⟩, ⟨_, rfl⟩⟩

/-- A command that succeeds and one that fails. -/
theorem test_witness_FinalAndLongFrame :
    Memory.wf 0 hashing.outb ∧ (∃ t, exec .b2bFinal hashing = .next t ∧ t.reg.err = 0) ∧
    Memory.wf 0 State.reset.outb ∧ (∃ t, exec .b2bLong State.reset = .next t ∧ t.reg.err ≠ 0) :=
  ⟨by decide, ⟨_, rfl, rfl⟩, by decide, ⟨_, rfl, by decide⟩⟩

theorem test_witness_ResetMeetsTheInvariant : Config.suggested.wf := by decide

theorem test_witness_EveryStepKeepsTheInvariant :
    let s : State := { hashing with host := ⟨[.writeReg 0 0x4001], []⟩ }
    s.Inv ∧ ∃ t, step s = .next t :=
  ⟨{ test_inv_hashing with }, ⟨_, rfl⟩⟩

end Sys2Proof.Tests
end

/-! PROOFS. The byte form of a block (O39), the invariant right after reset (O53), and the invariant through every step (O54).
The invariant's step lemma goes command by command: each completes in a state that meets every clause but those on ERR and
STATUS (`State.Settled`), and `finish` puts these in step. For `A2ID_HASH` the clause on WM rests on the fill writing blocks
of the region only, which zeroization then clears. -/

namespace Sys2Proof.Machine

theorem toNat_ofNat_of_lt {w n : Nat} (h : n < 2 ^ w) : (BitVec.ofNat w n).toNat = n :=
  (BitVec.toNat_ofNat n w).trans (Nat.mod_eq_of_lt h)

/-! ## Blocks and their bytes -/

/-- The eight bytes at an offset inside a string are the bytes of the word loaded there. -/
theorem le64_load64le (b : List Byte) (off : Nat) (h : off + 8 ≤ b.length) :
    le64 (load64le b off) = (b.drop off).take 8 := by
  have hlen : ((b.drop off).take 8).length = 8 := by simp only [List.length_take, List.length_drop]; omega
  have hlt := leNat_lt ((b.drop off).take 8)
  rw [hlen] at hlt
  have hval : (load64le b off).toNat = leNat ((b.drop off).take 8) := toNat_ofNat_of_lt hlt
  calc le64 (load64le b off) = leBytes ((b.drop off).take 8).length (leNat ((b.drop off).take 8)) := by
        rw [le64, hval, hlen]
    _ = (b.drop off).take 8 := leBytes_leNat _

/-- The word loaded where a word's bytes stand is the word. -/
theorem load64le_le64_append (w : Word) (b : List Byte) : load64le (le64 w ++ b) 0 = w := by
  have hw : w.toNat < 256 ^ 8 := w.isLt
  have htake : (le64 w ++ b).take 8 = le64 w := List.take_left' (le64_length w)
  rw [load64le, List.drop_zero, htake, le64, leNat_leBytes, Nat.mod_eq_of_lt hw, BitVec.ofNat_toNat,
    BitVec.setWidth_eq]

/-- Loading beyond a leading string is loading from what follows it. -/
theorem load64le_append_right (a b : List Byte) (off : Nat) : load64le (a ++ b) (a.length + off) = load64le b off := by
  rw [load64le, load64le, List.drop_length_add_append]

/-- Word `k` of a string of word bytes is loaded from offset `8k`. -/
theorem load64le_flatMap_le64 (ws : List Word) (k : Nat) (h : k < ws.length) :
    load64le (ws.flatMap le64) (8 * k) = ws[k] := by
  induction ws generalizing k with
  | nil => exact absurd h (Nat.not_lt_zero k)
  | cons w ws ih =>
    rw [List.flatMap_cons]
    cases k with
    | zero => exact load64le_le64_append w _
    | succ k =>
      have hoff : 8 * (k + 1) = (le64 w).length + 8 * k := by rw [le64_length]; omega
      rw [hoff, load64le_append_right, ih k (Nat.lt_of_succ_lt_succ h), List.getElem_cons_succ]

/-- The first `n` words of a string, turned into bytes again, are its first `8n` bytes. -/
theorem flatMap_le64_load64le (b : List Byte) (n : Nat) (h : 8 * n ≤ b.length) :
    ((List.range n).map fun k => load64le b (8 * k)).flatMap le64 = b.take (8 * n) := by
  induction n with
  | zero => rfl
  | succ n ih =>
    rw [List.range_succ, List.map_append, List.flatMap_append, ih (by omega), Nat.mul_succ, List.take_add]
    simp only [List.map_cons, List.map_nil, List.flatMap_cons, List.flatMap_nil, List.append_nil]
    rw [le64_load64le b (8 * n) (by omega)]

/-- The words of a string in order. -/
theorem Block.toList_words (b : List Byte) :
    (Block.words b).toList = (List.range 128).map fun k => load64le b (8 * k) := by
  apply List.ext_getElem
  · simp
  · intro k _ _
    simp [Block.words]

@[simp] theorem Block.bytes_length (x : Block) : x.bytes.length = 1024 := by
  rw [Block.bytes, flatMap_le64_length, Vector.length_toList]

theorem Block.words_bytes (x : Block) : Block.words x.bytes = x := by
  apply Vector.ext
  intro k hk
  rw [Block.words, Vector.getElem_ofFn]
  exact load64le_flatMap_le64 x.toList k (by simpa using hk)

theorem Block.bytes_words (b : List Byte) (h : b.length = 1024) : (Block.words b).bytes = b := by
  rw [Block.bytes, Block.toList_words, flatMap_le64_load64le b 128 (by omega), List.take_of_length_le (by omega)]

/-- Settles O39: word by word in one direction, eight bytes by eight bytes in the other. -/
theorem blockBytesRoundTrip : Obligations.BlockBytesRoundTrip :=
  ⟨fun x => ⟨x.bytes_length, x.words_bytes⟩, Block.bytes_words⟩

/-! ## The invariant after reset -/

/-- R6, the row of `OUT_BYTES`. -/
theorem outBytes_bounds {c : Config} (h : c.wf) : c.maxOutlen ≤ c.outBytes ∧ 64 ≤ c.outBytes ∧ c.outBytes < 2 ^ 32 :=
  h.2.1

theorem resetWith_inv (c : Config) (h : c.wf) : (State.resetWith c).Inv where
  cfgWf    := h
  inWf     := Memory.wf_nil 0
  inRange  := nofun
  outWf    := Memory.wf_nil 0
  outTail  := nofun
  outFits  := Nat.zero_le _
  engine   := rfl
  unitIdle := fun _ => rfl
  unitBusy := nofun
  fail     := show statusFail 0 = decide ((0 : BitVec 5) ≠ 0) from rfl
  busyBit  := show statusB2bActive 0 = false from rfl
  done     := fun _ => ⟨rfl, rfl⟩
  errCode  := .inl rfl
  laneLen  := rfl
  memBlks  := ⟨0, rfl⟩

/-- Settles O53: every clause read off the reset values, the parameters' constraints given or computed. -/
theorem resetMeetsTheInvariant : Obligations.ResetMeetsTheInvariant :=
  ⟨resetWith_inv, resetWith_inv Config.suggested (by decide)⟩

/-! ## Sizes of an accepted request -/

/-- R110: validation passes when none of the twelve conditions holds. -/
theorem validate_eq_none_iff (s : State) : validate s = none ↔
    outPresent s = true ∧
    4 ≤ s.reg.outlen.toNat ∧ s.reg.outlen.toNat ≤ s.cfg.maxOutlen ∧
    s.reg.pwdlen.toNat ≤ s.cfg.maxPwdlen ∧
    8 ≤ s.reg.saltlen.toNat ∧ s.reg.saltlen.toNat ≤ s.cfg.maxSaltlen ∧
    1 ≤ s.reg.tCost.toNat ∧ s.reg.tCost.toNat ≤ s.cfg.maxTime ∧
    8 * s.reg.lanes.toNat ≤ s.reg.mCost.toNat ∧ s.reg.mCost.toNat ≤ s.cfg.maxMem ∧
    1 ≤ s.reg.lanes.toNat ∧ s.reg.lanes.toNat ≤ s.cfg.maxLanes := by
  simp only [validate, checks, Option.map_eq_none_iff, List.find?_eq_none, List.forall_mem_cons, List.not_mem_nil,
    false_imp_iff, implies_true, and_true, Bool.not_eq_true', Bool.not_eq_false, decide_eq_true_eq, not_lt,
    gt_iff_lt]

section
variable {m p : Nat}

theorem memoryBlocks_le (h : 8 * p ≤ m) : memoryBlocks m p ≤ m := by
  rw [memoryBlocks, segmentLength, Nat.mul_assoc, max_eq_left (by omega)]
  exact Nat.div_mul_le_self m (4 * p)

theorem two_le_segmentLength (hp : 1 ≤ p) : 2 ≤ segmentLength m p := by
  rw [segmentLength, Nat.le_div_iff_mul_le (by omega)]
  exact le_trans (by omega) (le_max_right m (2 * 4 * p))

theorem memoryBlocks_eq (m p : Nat) : memoryBlocks m p = p * laneLength m p := by
  rw [memoryBlocks, laneLength]; ring

theorem laneLength_le (hp : 1 ≤ p) (h : 8 * p ≤ m) : laneLength m p ≤ m :=
  calc laneLength m p ≤ p * laneLength m p := Nat.le_mul_of_pos_left _ hp
    _ = memoryBlocks m p := (memoryBlocks_eq m p).symm
    _ ≤ m := memoryBlocks_le h

end

/-! Nothing wraps in `derive`: each register holds the number of R112. -/

section
variable (s : State) (hp : 1 ≤ s.reg.lanes.toNat) (hm : 8 * s.reg.lanes.toNat ≤ s.reg.mCost.toNat)
include hm

theorem derive_memblks : (derive s).reg.memblks.toNat = memoryBlocks s.reg.mCost.toNat s.reg.lanes.toNat :=
  toNat_ofNat_of_lt (lt_of_le_of_lt (memoryBlocks_le hm) s.reg.mCost.isLt)

include hp

theorem derive_lanelen : (derive s).reg.lanelen.toNat = laneLength s.reg.mCost.toNat s.reg.lanes.toNat :=
  toNat_ofNat_of_lt (lt_of_le_of_lt (laneLength_le hp hm) s.reg.mCost.isLt)

theorem derive_seglen : (derive s).reg.seglen.toNat = segmentLength s.reg.mCost.toNat s.reg.lanes.toNat := by
  have hlane := laneLength_le hp hm
  rw [laneLength] at hlane
  exact toNat_ofNat_of_lt (by have := s.reg.mCost.isLt; omega)

/-- R112, R117: the sizes in the registers after `derive` are those of a fill. -/
theorem shapeOf_derive_ok : Claims.ShapeOk (shapeOf (derive s)) where
  lanes  := hp
  seg    := by
    show 2 ≤ (derive s).reg.seglen.toNat
    rw [derive_seglen s hp hm]; exact two_le_segmentLength hp
  lane   := by
    show (derive s).reg.lanelen.toNat = 4 * (derive s).reg.seglen.toNat
    rw [derive_lanelen s hp hm, derive_seglen s hp hm, laneLength]
  blocks := by
    show (derive s).reg.memblks.toNat = s.reg.lanes.toNat * (derive s).reg.lanelen.toNat
    rw [derive_memblks s hm, derive_lanelen s hp hm, memoryBlocks_eq]
  bound  := (derive s).reg.memblks.isLt

end

/-! ## The engine writes WM inside the region only

Every loop of the fill comes down to writes of single blocks below `memBlocks`, so a property of WM that such a write keeps
is kept by all of them. -/

/-- `P` is kept by a write of any block below `B`. -/
def KeptByWritesBelow (B : Nat) (P : Memory Block → Prop) : Prop :=
  ∀ (m : Memory Block) (i : Nat) (x : Block), i < B → P m → P (Memory.write Block.zero m i x)

section
variable {sh : Shape} (ok : Claims.ShapeOk sh) {P : Memory Block → Prop} (hP : KeptByWritesBelow sh.memBlocks P)
include ok hP

theorem firstBlocks_keeps {l : Nat} (hl : l < sh.lanes) (e : Engine) (he : P e.wm) : P (firstBlocks sh l e).wm := by
  have hlane := ok.lane
  have hseg := ok.seg
  have hend : (l + 1) * sh.laneLen ≤ sh.memBlocks := ok.blocks ▸ Nat.mul_le_mul_right _ hl
  rw [Nat.add_mul, Nat.one_mul] at hend
  obtain ⟨x, y, h⟩ := firstBlocks_wm sh l e
  rw [h]
  exact hP _ _ y (by omega) (hP _ _ x (by omega) he)

theorem seedLanes_keeps (s : State) (e : Engine) (he : P e.wm) : P (seedLanes s sh e).wm := by
  rw [seedLanes_wm]
  exact forUp_keeps (fun e => P e.wm) (firstBlocks sh) sh.lanes 0 _
    (fun l e _ hl he => firstBlocks_keeps ok hP (by omega) e he) (by rwa [seed_wm s e])

theorem fillOne_keeps {pass slice lane index : Nat} (hs : slice < 4) (hl : lane < sh.lanes) (hi : index < sh.segLen)
    (e : Engine) (he : P e.wm) : P (fillOne sh pass slice lane index e).wm := by
  obtain ⟨x, h⟩ := fillOne_wm sh pass slice lane index e
  rw [h]
  exact hP _ _ x (ok.blocks ▸ curIndex_lt sh lane slice index hl hs hi ok.lane) he

theorem fillSegment_keeps {pass slice lane : Nat} (hs : slice < 4) (hl : lane < sh.lanes) (e : Engine) (he : P e.wm) :
    P (fillSegment sh pass slice lane e).wm :=
  forUp_keeps (fun e => P e.wm) _ _ _ _
    (fun index e _ hi he => fillOne_keeps ok hP hs hl (by omega) e he) (by rwa [startSegment_wm])

theorem fillSlice_keeps {pass slice : Nat} (hs : slice < 4) (e : Engine) (he : P e.wm) :
    P (fillSlice sh pass slice e).wm :=
  forUp_keeps (fun e => P e.wm) _ _ _ _ (fun lane e _ hl he => fillSegment_keeps ok hP hs (by omega) e he) he

theorem fillPass_keeps (pass : Nat) (e : Engine) (he : P e.wm) : P (fillPass sh pass e).wm :=
  forUp_keeps (fun e => P e.wm) _ _ _ _ (fun slice e _ hs he => fillSlice_keeps ok hP (by omega) e he) he

theorem fillMemory_keeps (e : Engine) (he : P e.wm) : P (fillMemory sh e).wm :=
  forUp_keeps (fun e => P e.wm) _ _ _ _ (fun pass e _ _ he => fillPass_keeps ok hP pass e he) he

end

/-- A memory lists addresses below `B` only. -/
def ListsBelow (B : Nat) (m : Memory Block) : Prop := ∀ c ∈ m, c.1 < B

theorem listsBelow_kept (B : Nat) : KeptByWritesBelow B (ListsBelow B) := by
  intro m i x hi hm c hc
  rcases Memory.mem_write Block.zero m i x c hc with hc | ⟨rfl, -⟩
  · exact hm c hc
  · exact hi

/-- R46: from an empty WM the phases of the hash list blocks of the region only. -/
theorem runEngine_listsBelow (s : State) (ok : Claims.ShapeOk (shapeOf s)) (h : s.eng.wm = []) :
    ListsBelow s.reg.memblks.toNat (runEngine s).wm := by
  have kept := listsBelow_kept s.reg.memblks.toNat
  refine fillMemory_keeps ok kept _ (seedLanes_keeps ok kept s _ ?_)
  rw [allocate_wm, h]
  exact nofun

/-! ## The state a command completes in -/

/-- The clauses of `State.Inv` that do not speak of ERR and STATUS: what a command has to have established when it completes,
for `finish` writes these two. -/
structure State.Settled (s : State) : Prop where
  cfgWf    : s.cfg.wf
  inWf     : Memory.wf 0 s.inb
  inRange  : ∀ c ∈ s.inb, c.1 < s.cfg.inBytes
  outWf    : Memory.wf 0 s.outb
  outTail  : ∀ c ∈ s.outb, c.1 < s.reg.outcnt.toNat
  outFits  : s.reg.outcnt.toNat ≤ s.cfg.outBytes
  engine   : s.eng = Engine.cleared
  unitIdle : s.b2b.active = false → s.b2b = B2bUnit.cleared
  unitBusy : s.b2b.active = true → s.b2b.InProgress
  laneLen  : s.reg.lanelen.toNat = 4 * s.reg.seglen.toNat
  memBlks  : ∃ p : Nat, s.reg.memblks.toNat = s.reg.seglen.toNat * p * 4

theorem State.Inv.settled {s : State} (h : s.Inv) : s.Settled := { h with }

namespace State.Settled
variable {s : State} (h : s.Settled)
include h

/-- R163: completion puts ERR and STATUS in step. -/
theorem finish_inv {c : BitVec 5} (hc : c = 0 ∨ ∃ k : ErrKind, c = k.code) : (finish c s).Inv :=
  { h with
    fail    := statusFail_statusBits c s.b2b.active
    busyBit := statusB2bActive_statusBits c s.b2b.active
    done    := fun hd => absurd (statusDone_statusBits c s.b2b.active) (hd ▸ Bool.false_ne_true)
    errCode := hc }

theorem complete_inv : (finish 0 s).Inv := h.finish_inv (.inl rfl)

theorem raise_inv (k : ErrKind) : (finish k.code s).Inv := h.finish_inv (.inr ⟨k, rfl⟩)

/-- A unit with a hash in progress. -/
theorem withBusyUnit {u : B2bUnit} (ha : u.active = true) (hu : u.InProgress) : { s with b2b := u }.Settled :=
  { h with
    unitIdle := fun hf => absurd ha (hf ▸ Bool.false_ne_true)
    unitBusy := fun _ => hu }

theorem withClearedUnit : (clearUnit s).Settled :=
  { h with
    unitIdle := fun _ => rfl
    unitBusy := nofun }

/-- R47: a result replaces the one in OUT. -/
theorem withResult {n : Nat} (D : List Byte) (hn : n ≤ s.cfg.outBytes) : (writeResult n D s).Settled := by
  obtain ⟨-, -, hlt⟩ := outBytes_bounds h.cfgWf
  have hcnt : (BitVec.ofNat 32 n).toNat = n := toNat_ofNat_of_lt (lt_of_le_of_lt hn hlt)
  have hempty : Memory.zeroRange 0 s.cfg.outBytes s.outb = [] :=
    Memory.zeroRange_eq_nil _ _ fun c hc => lt_of_lt_of_le (h.outTail c hc) h.outFits
  exact
    { h with
      outWf   := wf_writeResult n D s h.outWf
      outTail := by
        intro c hc
        rw [writeResult_outb, hempty] at hc
        show c.1 < (BitVec.ofNat 32 n).toNat
        rcases Memory.mem_writeList 0 _ _ _ c hc with hc | ⟨-, hc⟩
        · exact absurd hc List.not_mem_nil
        · rw [List.length_take] at hc; omega
      outFits := hcnt.trans_le hn }

/-- R112: the three registers `derive` writes, for a request whose sizes are those of a fill. -/
theorem withSizes (ok : Claims.ShapeOk (shapeOf (derive s))) : (derive s).Settled :=
  { h with
    laneLen := ok.lane
    memBlks := ⟨s.reg.lanes.toNat, by
      have hblocks : (derive s).reg.memblks.toNat = s.reg.lanes.toNat * (derive s).reg.lanelen.toNat := ok.blocks
      have hlane : (derive s).reg.lanelen.toNat = 4 * (derive s).reg.seglen.toNat := ok.lane
      rw [hblocks, hlane]; ring⟩ }

/-- R150: finalization settles everything but the engine, which holds the working data until it is zeroized. -/
theorem withHashResult (hn : s.reg.outlen.toNat ≤ s.cfg.outBytes) :
    { finalizeHash s with eng := Engine.cleared }.Settled :=
  withResult (s := { s with eng := Engine.cleared }) { h with engine := rfl } _ hn

end State.Settled

/-- R151: zeroization settles the engine, when WM lists zeroized blocks only. -/
theorem State.Settled.zeroized {s : State} {n : Nat} (h : { s with eng := Engine.cleared }.Settled)
    (hwm : ListsBelow n s.eng.wm) : (zeroize n s).Settled :=
  { h with
    inWf     := Memory.wf_zeroRange 0 _ _ _ h.inWf
    inRange  := fun c hc => h.inRange c ((Memory.mem_zeroRange _ _ _ c).1 hc).1
    engine   := engine_zeroize_cleared n s.eng hwm
    unitIdle := fun _ => rfl
    unitBusy := nofun }

/-- R151 on a failed `A2ID_HASH`, which has used no block of WM. -/
theorem State.Settled.zeroizedNone {s : State} (h : s.Settled) : (zeroize 0 s).Settled :=
  zeroized { h with engine := rfl } (h.engine ▸ nofun)

/-! ## Commands keep the invariant -/

section
variable {s t : State} (h : s.Inv)
include h

theorem b2bInit_keeps_inv {n : Nat} (hx : exec (.b2bInit n) s = .next t) : t.Inv := by
  rcases exec_b2bInit_cases hx with ⟨-, rfl⟩ | ⟨hn, rfl⟩
  · exact h.settled.raise_inv .b2bOutlen
  · have hlen : ¬(n = 0 ∨ n > 64) := of_decide_eq_false hn
    exact (h.settled.withBusyUnit rfl (initUnit_inProgress n (by omega) (by omega))).complete_inv

theorem b2bUpdate_keeps_inv (hx : exec .b2bUpdate s = .next t) : t.Inv := by
  rcases exec_b2bUpdate_cases hx with ⟨-, rfl⟩ | ⟨-, -, rfl⟩ | ⟨ha, -, rfl⟩
  · exact h.settled.raise_inv .b2bState
  · exact h.settled.raise_inv .srcRange
  · exact (h.settled.withBusyUnit ((absorb_active _ _).trans ha) (absorb_inProgress _ _ (h.unitBusy ha))).complete_inv

theorem b2bFinal_keeps_inv (hx : exec .b2bFinal s = .next t) : t.Inv := by
  rcases exec_b2bFinal_cases hx with ⟨-, rfl⟩ | ⟨ha, rfl⟩
  · exact h.settled.raise_inv .b2bState
  · obtain ⟨-, hmin, -⟩ := outBytes_bounds h.cfgWf
    have hn : s.b2b.outlen.toNat ≤ s.cfg.outBytes := (h.unitBusy ha).outlenMax.trans hmin
    exact (h.settled.withResult _ hn).withClearedUnit.complete_inv

theorem b2bLong_keeps_inv (hx : exec .b2bLong s = .next t) : t.Inv := by
  rcases exec_b2bLong_cases hx with ⟨-, rfl⟩ | ⟨-, -, rfl⟩ | ⟨-, -, -, rfl⟩ | ⟨-, hn, -, rfl⟩
  · exact h.settled.raise_inv .b2bState
  · exact h.settled.raise_inv .b2bOutlen
  · exact h.settled.raise_inv .srcRange
  · have hlen : ¬(s.reg.outlen.toNat = 0 ∨ s.reg.outlen.toNat > s.cfg.outBytes) := of_decide_eq_false hn
    exact (h.settled.withResult _ (by omega)).withClearedUnit.complete_inv

theorem a2idHash_keeps_inv (hx : exec .a2idHash s = .next t) : t.Inv := by
  rcases exec_a2idHash_cases hx with ⟨-, rfl⟩ | ⟨-, k, -, rfl⟩ | ⟨-, hv, -, rfl⟩ | ⟨-, hv, -, rfl⟩
  · exact h.settled.raise_inv .b2bState
  · exact h.settled.zeroizedNone.raise_inv k
  all_goals
    obtain ⟨-, -, hout, -, -, -, -, -, hm, -, hp, -⟩ := (validate_eq_none_iff s).1 hv
    have ok := shapeOf_derive_ok s hp hm
    have hs := h.settled.withSizes ok
  · exact hs.zeroizedNone.raise_inv .memoryAllocation
  · obtain ⟨hmax, -, -⟩ := outBytes_bounds h.cfgWf
    have hn : (derive s).reg.outlen.toNat ≤ (derive s).cfg.outBytes := hout.trans hmax
    have hwm : (derive s).eng.wm = [] := hs.engine ▸ rfl
    exact (State.Settled.zeroized (hs.withHashResult hn) (runEngine_listsBelow _ ok hwm)).complete_inv

theorem exec_keeps_inv {i : Instr} (hx : exec i s = .next t) : t.Inv := by
  cases i with
  | b2bInit n => exact b2bInit_keeps_inv h hx
  | b2bUpdate => exact b2bUpdate_keeps_inv h hx
  | b2bFinal  => exact b2bFinal_keeps_inv h hx
  | b2bLong   => exact b2bLong_keeps_inv h hx
  | a2idHash  => exact a2idHash_keeps_inv h hx

theorem runWord_keeps_inv {w : Word32} (hx : runWord w s = .next t) : t.Inv := by
  rcases runWord_cases hx with ⟨i, -, hi⟩ | ⟨r, -, rfl⟩
  · exact exec_keeps_inv h hi
  · exact h.settled.raise_inv .cmdIllegal

/-! ## Host accesses keep the invariant -/

/-- No clause of the invariant names a register the host can write. -/
theorem writeReg_keeps_inv (i : Nat) (v : Word32) : (writeReg s i v).Inv := by
  unfold writeReg
  split <;> exact { h with }

theorem withHost_keeps_inv (p : HostPort) : { s with host := p }.Inv := { h with }

theorem writeInByte_keeps_inv (o : Nat) (b : Byte) : (writeInByte o b s).Inv := by
  unfold writeInByte
  split
  next ho =>
    exact
      { h with
        inWf    := Memory.wf_write 0 s.inb o b h.inWf
        inRange := by
          intro c hc
          rcases Memory.mem_write 0 s.inb o b c hc with hc | ⟨rfl, -⟩
          · exact h.inRange c hc
          · exact ho }
  next => exact h

theorem resetEvent_keeps_inv : (resetEvent s).Inv := withHost_keeps_inv (resetWith_inv s.cfg h.cfgWf) s.host

theorem serve_keeps_inv {a : Access} (hx : serve a s = .next t) : t.Inv := by
  rcases serve_cases hx with ⟨w, -, hw⟩ | ⟨i, v, -, -, rfl⟩ | ⟨i, -, rfl⟩ | ⟨o, b, -, rfl⟩ | ⟨o, -, rfl⟩ | ⟨-, rfl⟩
  · exact runWord_keeps_inv (writeReg_keeps_inv h cmdIndex w) hw
  · exact writeReg_keeps_inv h i v
  · exact withHost_keeps_inv h _
  · exact writeInByte_keeps_inv h o b
  · exact withHost_keeps_inv h _
  · exact resetEvent_keeps_inv h

theorem step_keeps_inv (hx : step s = .next t) : t.Inv := by
  rcases step_cases hx with ⟨-, rfl⟩ | ⟨a, rest, -, ha⟩
  · exact h
  · exact serve_keeps_inv (withHost_keeps_inv h _) ha

end

/-- Settles O54: access by access; a command completes in a settled state, and `finish` adds ERR and STATUS. -/
theorem everyStepKeepsTheInvariant : Obligations.EveryStepKeepsTheInvariant :=
  fun _ _ => step_keeps_inv

end Sys2Proof.Machine

/-! PROOFS. The state as the host sees it: a write to CMD (O5), the REG space (O10 to O13), what no read shows (O15), the
reset values (O16), and what no command changes (O50). One lemma per access says what the step that serves it answers, and
one equation says what every register index reads as after a write. -/

namespace Sys2Proof.Machine

open Claims

/-! ## Outcomes as the statements report them -/

theorem statusBits_eq_ofNat : ∀ (c : BitVec 5) (a : Bool),
    statusBits c a = BitVec.ofNat 3 (1 + (if c = 0 then 0 else 2) + (if a = true then 4 else 0)) := by decide

theorem finish_eq_reported (c : BitVec 5) (s : State) : finish c s = reported c s := by
  rw [finish, statusBits_eq_ofNat, reported]

/-! ## One step, by the access it serves -/

section
variable {s : State} {rest : List Access}

theorem step_of_pending {a : Access} (h : s.host.pending = a :: rest) : step s = serve a (taken rest s) := by
  simp only [step, serveNext, h, taken]

theorem step_writeCmd {w : Word32} (h : s.host.pending = .writeReg 0 w :: rest) :
    step s = runWord w { taken rest s with reg := { s.reg with cmd := w } } :=
  step_of_pending h

theorem step_writeReg {i : Nat} {v : Word32} (hi : i ≠ 0) (h : s.host.pending = .writeReg i v :: rest) :
    step s = .next (writeReg (taken rest s) i v) := by
  rw [step_of_pending h]
  exact if_neg hi

theorem step_readReg {i : Nat} (h : s.host.pending = .readReg i :: rest) :
    step s = .next (answered (.word (readReg s i)) (taken rest s)) :=
  step_of_pending h

theorem step_readOut {o : Nat} (h : s.host.pending = .readOut o :: rest) :
    step s = .next (answered (.byte (readOutByte o s)) (taken rest s)) :=
  step_of_pending h

end

theorem runWord_ok {w : Word32} {i : Instr} (h : decode w = .ok i) (s : State) : runWord w s = exec i s := by
  rw [runWord, h]

theorem runWord_error {w : Word32} {r : DecodeReject} (h : decode w = .error r) (s : State) :
    runWord w s = .next (reported 16 s) := by
  rw [runWord, h, ← finish_eq_reported]
  rfl

/-- Settles O5: the write to CMD runs the stored word, and the word's decoding decides which case it is. -/
theorem stepRunsTheCommandWritten : Obligations.StepRunsTheCommandWritten := by
  intro s rest
  refine ⟨fun w hw => ⟨fun i hi => ?_, fun r hr => ?_⟩, step_readReg⟩
  · rw [step_writeCmd hw, runWord_ok hi]
  · rw [step_writeCmd hw, runWord_error hr]

/-! ## The REG space -/

theorem readReg_unmapped (s : State) {i : Nat} (h : 0x13 ≤ i) : readReg s i = 0 := by
  rw [readReg] <;> omega

theorem writeReg_ignored (s : State) {i : Nat} (v : Word32) (h0 : i ≠ 0) (h : i < 0x03 ∨ 0x0B < i) :
    writeReg s i v = s := by
  rw [writeReg] <;> omega

theorem writeReg_frame (s : State) (i : Nat) (v : Word32) :
    writeReg s i v = { s with reg := (writeReg s i v).reg } := by
  unfold writeReg
  split <;> rfl

/-- R24: the one stored bit of CTRL, as the host reads it. -/
theorem setWidth_one_setWidth (v : Word32) : (v.setWidth 1).setWidth 32 = v &&& 1 := by
  apply BitVec.eq_of_toNat_eq
  rw [BitVec.toNat_and, BitVec.toNat_setWidth, BitVec.toNat_setWidth, show (1 : Word32).toNat = 1 from rfl,
    Nat.and_one_is_mod]
  omega

/-- What the host reads at every index after a write to an operand register. -/
theorem readReg_writeReg (s : State) {i : Nat} (v : Word32) (hlo : 0x03 ≤ i) (hhi : i ≤ 0x0B) (j : Nat) :
    readReg (writeReg s i v) j =
      if j = i then (if i = 0x03 then (v.setWidth 1).setWidth 32 else v) else readReg s j := by
  rcases Nat.lt_or_ge j 0x13 with hj | hj
  · interval_cases i <;> interval_cases j <;> rfl
  · rw [readReg_unmapped _ hj, readReg_unmapped _ hj, if_neg (by omega)]

/-- Settles O13: the write is `writeReg`, whose effect on every read is known. -/
theorem operandRegisterWriteChangesThatRegisterOnly : Obligations.OperandRegisterWriteChangesThatRegisterOnly := by
  intro s rest i v hlo hhi hp
  refine ⟨_, step_writeReg (by omega) hp, writeReg_frame _ i v, ?_, fun j hj => ?_⟩
  · rw [readReg_writeReg _ v hlo hhi, if_pos rfl, setWidth_one_setWidth]
  · rw [readReg_writeReg _ v hlo hhi, if_neg hj]
    rfl

/-- Settles O10: the mapped indices one by one, the others together. -/
theorem hostReadsTheRegisterMap : Obligations.HostReadsTheRegisterMap := by
  refine fun s rest i hp => ⟨readReg s i, step_readReg hp, ?_⟩
  split
  next hi => interval_cases i <;> simp [readReg, versionConst, typeTag] <;> omega
  next hi => rw [readReg_unmapped s (by omega)]; rfl

/-- Settles O11: each of the nine lies outside what the host can write. -/
theorem writeToReadOnlyRegisterIsIgnored : Obligations.WriteToReadOnlyRegisterIsIgnored := by
  intro s rest i v hi hp
  obtain ⟨h0, hro⟩ : i ≠ 0 ∧ (i < 0x03 ∨ 0x0B < i) := by
    simp only [List.mem_cons, List.not_mem_nil, or_false] at hi
    omega
  rw [step_writeReg h0 hp, writeReg_ignored _ v h0 hro]

/-- Settles O12: the last case of a read, the last case of a write. -/
theorem unmappedRegisterReadsZeroAndIgnoresWrites : Obligations.UnmappedRegisterReadsZeroAndIgnoresWrites := by
  refine fun s rest i hi => ⟨fun hp => ?_, fun v hp => ?_⟩
  · rw [step_readReg hp, readReg_unmapped s hi]
  · rw [step_writeReg (by omega) hp, writeReg_ignored _ v (by omega) (by omega)]

/-! ## What the host cannot read -/

theorem readReg_congr {s s' : State} (hc : s.cfg = s'.cfg) (hr : s.reg = s'.reg) (i : Nat) :
    readReg s i = readReg s' i := by
  simp only [readReg, hc, hr]

theorem readOutByte_congr {s s' : State} (hc : s.cfg = s'.cfg) (ho : s.outb = s'.outb) (o : Nat) :
    readOutByte o s = readOutByte o s' := by
  simp only [readOutByte, readOut, hc, ho]

/-- Settles O15: the reply to either read is a function of the parameters, the registers and OUT. -/
theorem internalStateCannotBeRead : Obligations.InternalStateCannotBeRead := by
  intro s s' t t' rest a ha hp hp' hcfg hreg hout hreplies ht ht'
  rcases ha with ⟨i, rfl⟩ | ⟨o, rfl⟩
  · obtain rfl := next_inj ((step_readReg hp).symm.trans ht)
    obtain rfl := next_inj ((step_readReg hp').symm.trans ht')
    simp only [answered, taken, readReg_congr hcfg hreg i, hreplies]
  · obtain rfl := next_inj ((step_readOut hp).symm.trans ht)
    obtain rfl := next_inj ((step_readOut hp').symm.trans ht')
    simp only [answered, taken, readOutByte_congr hcfg hout o, hreplies]

/-! ## Reset -/

theorem readReg_resetWith (c : Config) (i : Nat) : readReg (State.resetWith c) i =
    if i = 0x0F then 0x13 else if i = 0x10 then 2 else if i = 0x11 then BitVec.ofNat 32 c.capBlocks else 0 := by
  rcases Nat.lt_or_ge i 0x13 with hi | hi
  · interval_cases i <;> rfl
  · rw [readReg_unmapped _ hi, if_neg (by omega), if_neg (by omega), if_neg (by omega)]

theorem unitIsZero_cleared : UnitIsZero B2bUnit.cleared := by
  simp [UnitIsZero, B2bUnit.cleared]

theorem engineRegsAreZero_cleared : EngineRegsAreZero Engine.cleared := by
  simp [EngineRegsAreZero, Engine.cleared]

/-- Settles O16: every register at the value of its column, both cleared units, and memories that list nothing. -/
theorem resetLeavesTheSpecValues : Obligations.ResetLeavesTheSpecValues :=
  fun c => ⟨readReg_resetWith c, unitIsZero_cleared, engineRegsAreZero_cleared, fun _ => rfl, fun _ => rfl⟩

/-! ## What a command keeps -/

theorem operandsKept_refl (s : State) : OperandsKept s s := by
  constructor <;> rfl

section
variable {s t : State} (h : OperandsKept s t)
include h

theorem operandsKept_finish (c : BitVec 5) : OperandsKept s (finish c t) := { h with }
theorem operandsKept_writeResult (n : Nat) (D : List Byte) : OperandsKept s (writeResult n D t) := { h with }
theorem operandsKept_withUnit (u : B2bUnit) : OperandsKept s { t with b2b := u } := { h with }
theorem operandsKept_withEngine (e : Engine) : OperandsKept s { t with eng := e } := { h with }
theorem operandsKept_zeroize (n : Nat) : OperandsKept s (zeroize n t) := { h with }
theorem operandsKept_derive : OperandsKept s (derive t) := { h with }
theorem operandsKept_finalizeHash : OperandsKept s (finalizeHash t) :=
  operandsKept_writeResult (operandsKept_withEngine h _) _ _

end

/-- R110, R161: the codes of the twelve checks are below the four that change nothing but ERR and STATUS. -/
theorem validate_code_lt {s : State} {k : ErrKind} (h : validate s = some k) : k.code.toNat < 16 := by
  obtain ⟨c, hc, rfl⟩ := Option.map_eq_some_iff.1 h
  have hall : ∀ c ∈ checks s, c.2.code.toNat < 16 := by
    simp only [checks, List.forall_mem_cons, ErrKind.code]
    decide
  exact hall c (List.mem_of_find?_eq_some hc)

/-- What O50 says of one command that took `s` to `t`. -/
def CommandKeeps (s t : State) : Prop :=
  OperandsKept s t ∧ (t.reg.err ≠ 0 → t.reg.outcnt = s.reg.outcnt ∧ t.outb = s.outb) ∧
    (16 ≤ t.reg.err.toNat → t = reported t.reg.err s)

/-- A command that reports an error and does nothing else. -/
theorem commandKeeps_raise (s : State) (c : BitVec 5) : CommandKeeps s (finish c s) :=
  ⟨operandsKept_finish (operandsKept_refl s) c, fun _ => ⟨rfl, rfl⟩, fun _ => finish_eq_reported c s⟩

theorem commandKeeps_complete {s t : State} (h : OperandsKept s t) : CommandKeeps s (finish 0 t) :=
  ⟨operandsKept_finish h 0, fun h0 => absurd rfl h0, nofun⟩

/-- A command that fails with a code below 16, with work done outside OUT. -/
theorem commandKeeps_fail {s t : State} {c : BitVec 5} (h : OperandsKept s t) (hcnt : t.reg.outcnt = s.reg.outcnt)
    (hout : t.outb = s.outb) (hc : c.toNat < 16) : CommandKeeps s (finish c t) :=
  ⟨operandsKept_finish h c, fun _ => ⟨hcnt, hout⟩, fun h16 => absurd hc (Nat.not_lt.2 h16)⟩

theorem exec_commandKeeps {i : Instr} {s t : State} (h : exec i s = .next t) : CommandKeeps s t := by
  have kept := operandsKept_refl s
  cases i with
  | b2bInit n =>
    rcases exec_b2bInit_cases h with ⟨-, rfl⟩ | ⟨-, rfl⟩
    · exact commandKeeps_raise s _
    · exact commandKeeps_complete (operandsKept_withUnit kept _)
  | b2bUpdate =>
    rcases exec_b2bUpdate_cases h with ⟨-, rfl⟩ | ⟨-, -, rfl⟩ | ⟨-, -, rfl⟩
    · exact commandKeeps_raise s _
    · exact commandKeeps_raise s _
    · exact commandKeeps_complete (operandsKept_withUnit kept _)
  | b2bFinal =>
    rcases exec_b2bFinal_cases h with ⟨-, rfl⟩ | ⟨-, rfl⟩
    · exact commandKeeps_raise s _
    · exact commandKeeps_complete (operandsKept_withUnit (operandsKept_writeResult kept _ _) _)
  | b2bLong =>
    rcases exec_b2bLong_cases h with ⟨-, rfl⟩ | ⟨-, -, rfl⟩ | ⟨-, -, -, rfl⟩ | ⟨-, -, -, rfl⟩
    · exact commandKeeps_raise s _
    · exact commandKeeps_raise s _
    · exact commandKeeps_raise s _
    · exact commandKeeps_complete (operandsKept_withUnit (operandsKept_writeResult kept _ _) _)
  | a2idHash =>
    rcases exec_a2idHash_cases h with ⟨-, rfl⟩ | ⟨-, k, hk, rfl⟩ | ⟨-, -, -, rfl⟩ | ⟨-, -, -, rfl⟩
    · exact commandKeeps_raise s _
    · exact commandKeeps_fail (operandsKept_zeroize kept 0) rfl rfl (validate_code_lt hk)
    · exact commandKeeps_fail (operandsKept_zeroize (operandsKept_derive kept) 0) rfl rfl (by decide)
    · exact commandKeeps_complete (operandsKept_zeroize (operandsKept_finalizeHash (operandsKept_derive kept)) _)

/-- Settles O50: command by command, each of its outcomes is a bare error, a failure outside OUT, or a completion. -/
theorem commandsKeepTheOperandRegisters : Obligations.CommandsKeepTheOperandRegisters :=
  fun _ _ _ => exec_commandKeeps

end Sys2Proof.Machine

/-! PROOFS. One turn of the segment loop (O58). The addressing of R141 to R147 is put on numbers, where nothing wraps at a
position of the loop; a turn is then one `fill_block` whose indices are the statement's own (`fillOne_eq`). -/

namespace Sys2Proof.Machine

open Claims

/-! ## Addressing on numbers -/

/-- The upper half of the product of two zero-extended 32-bit words. -/
theorem mul_ushiftRight_32_toNat (x y : Word) (hx : x.toNat < 2 ^ 32) (hy : y.toNat < 2 ^ 32) :
    ((x * y) >>> 32).toNat = x.toNat * y.toNat / 2 ^ 32 := by
  have hlt : x.toNat * y.toNat < 2 ^ 64 := Nat.mul_lt_mul'' (c := 2 ^ 32) (d := 2 ^ 32) hx hy
  rw [BitVec.toNat_ushiftRight, BitVec.toNat_mul, Nat.shiftRight_eq_div_pow, Nat.mod_eq_of_lt hlt]

theorem setWidth_64_toNat (w : Word32) : (w.setWidth 64).toNat = w.toNat := by
  rw [BitVec.toNat_setWidth, Nat.mod_eq_of_lt (w.isLt.trans (by decide))]

theorem mapX_toNat (j1 : Word32) : (mapX j1).toNat = j1.toNat * j1.toNat / 2 ^ 32 := by
  rw [mapX, mul_ushiftRight_32_toNat] <;> simp only [setWidth_64_toNat, j1.isLt]

theorem mapX_toNat_lt (j1 : Word32) : (mapX j1).toNat < 2 ^ 32 := by
  rw [mapX_toNat]
  exact Nat.div_lt_of_lt_mul (Nat.mul_lt_mul'' j1.isLt j1.isLt)

theorem mapY_toNat (area j1 : Word32) : (mapY area j1).toNat = area.toNat * (mapX j1).toNat / 2 ^ 32 := by
  rw [mapY, mul_ushiftRight_32_toNat _ _ _ (mapX_toNat_lt j1)] <;> simp only [setWidth_64_toNat, area.isLt]

theorem mapY_toNat_lt (area j1 : Word32) (h : 1 ≤ area.toNat) : (mapY area j1).toNat < area.toNat := by
  rw [mapY_toNat]
  exact Nat.div_lt_of_lt_mul (by rw [Nat.mul_comm]; exact Nat.mul_lt_mul_of_pos_right (mapX_toNat_lt j1) h)

/-- R143: inside a window that is not empty the relative position does not wrap. -/
theorem relPosition_toNat (area j1 : Word32) (h : 1 ≤ area.toNat) :
    (relPosition area j1).toNat = area.toNat - 1 - area.toNat * (j1.toNat * j1.toNat / 2 ^ 32) / 2 ^ 32 := by
  have hy := mapY_toNat_lt area j1 h
  have ha : (area - 1).toNat = area.toNat - 1 := BitVec.toNat_sub_of_le (x := area) (y := 1) h
  rw [← mapX_toNat, ← mapY_toNat, relPosition, BitVec.toNat_sub_of_le, setWidth_64_toNat, ha]
  rw [BitVec.le_def, setWidth_64_toNat, ha]
  omega

theorem lowHalf_toNat (rand : Word) : (lowHalf rand).toNat = rand.toNat % 2 ^ 32 := by
  rw [lowHalf, BitVec.extractLsb'_toNat, Nat.shiftRight_zero]

theorem highHalf_toNat (rand : Word) : (highHalf rand).toNat = rand.toNat / 2 ^ 32 := by
  rw [highHalf, BitVec.extractLsb'_toNat, Nat.shiftRight_eq_div_pow]
  have := rand.isLt
  omega

theorem areaNat_eq_areaOf (sh : Shape) (pass slice index : Nat) (sameLane : Prop) [Decidable sameLane] :
    areaNat sh pass slice index (decide sameLane) = areaOf sh pass slice index sameLane := by
  simp only [areaNat, areaOf, decide_eq_true_eq]

theorem windowStart_eq (sh : Shape) (pass slice : Nat) : windowStart sh pass slice =
    if pass = 0 ∨ slice = 3 then 0 else (slice + 1) * sh.segLen := by
  unfold windowStart
  by_cases hp : pass = 0 <;> simp [hp]

section
variable {sh : Shape} {pass slice lane index : Nat} (ok : ShapeOk sh) (pos : PositionOk sh pass slice lane index)
include ok

theorem laneLen_le_memBlocks : sh.laneLen ≤ sh.memBlocks := by
  rw [ok.blocks]; exact Nat.le_mul_of_pos_left _ ok.lanes

theorem prevIndex_eq : prevIndex sh lane slice index = previousOf sh lane slice index := by
  have hlane := ok.lane
  have hseg := ok.seg
  simp only [prevIndex, previousOf, curIndex]
  split <;> omega

include pos

theorem areaOf_pos (sameLane : Prop) [Decidable sameLane] : 1 ≤ areaOf sh pass slice index sameLane := by
  have hseg := ok.seg
  have hlane := ok.lane
  have hstart := pos.start
  have hdone : slice = 0 ∨ sh.segLen ≤ slice * sh.segLen := slice.eq_zero_or_pos.imp_right (Nat.le_mul_of_pos_left _)
  unfold areaOf
  split_ifs <;> omega

/-- R141, R143, R144: the position in the reference lane, as a number. -/
theorem indexAlpha_eq (sameLane : Prop) [Decidable sameLane] (j1 : Word32) :
    indexAlpha sh pass slice index (decide sameLane) j1 =
      ((if pass = 0 ∨ slice = 3 then 0 else (slice + 1) * sh.segLen) +
        (areaOf sh pass slice index sameLane - 1 -
          areaOf sh pass slice index sameLane * (j1.toNat * j1.toNat / 2 ^ 32) / 2 ^ 32)) % sh.laneLen := by
  have hlt : sh.laneLen < 2 ^ 32 := lt_of_le_of_lt (laneLen_le_memBlocks ok) ok.bound
  have harea : (areaSize sh pass slice index (decide sameLane)).toNat = areaOf sh pass slice index sameLane := by
    rw [areaSize_toNat _ _ _ _ _ ok.seg ok.lane hlt pos.sliceLt pos.indexLt pos.start, areaNat_eq_areaOf]
  rw [indexAlpha, windowStart_eq, relPosition_toNat _ _ (harea ▸ areaOf_pos ok pos sameLane), harea]

theorem refIndex_eq (rand : Word) :
    refIndex sh pass slice lane index rand = referenceOf sh pass slice lane index rand.toNat := by
  simp only [refIndex, indexAlpha_eq ok pos, referenceOf, refLane, lowHalf_toNat, highHalf_toNat]

end

/-! ## One block -/

theorem readWM_congr {e e' : Engine} (h : e'.wm = e.wm) (j : Nat) : e'.readWM j = e.readWM j := by
  rw [Engine.readWM, Engine.readWM, h]

theorem filled_eq (prev ref cur : Nat) (withXor : Bool) (e : Engine) :
    filled prev ref cur withXor e =
      if withXor then (mixed ((e.readWM ref).xor (e.readWM prev))).xor (e.readWM cur)
      else mixed ((e.readWM ref).xor (e.readWM prev)) := by
  cases withXor <;> rw [filled, produceBlock_fst]
  · exact Block.xor_comm _ _
  · exact (Block.xor_comm _ _).trans (Block.xor_assoc _ _ _).symm

theorem readWM_fillBlock_cur (prev ref cur : Nat) (withXor : Bool) (e : Engine) (h : Memory.wf Block.zero e.wm) :
    (fillBlock prev ref cur withXor e).readWM cur = filled prev ref cur withXor e := by
  rw [Engine.readWM, fillBlock_wm, Memory.read_write_same _ _ _ _ h]

/-! ## One turn -/

/-- R147: the engine with its address block regenerated where a turn does so. -/
def regenerated (pass slice index : Nat) (e : Engine) : Engine :=
  if pass = 0 ∧ slice < 2 ∧ index % 128 = 0 then nextAddresses e else e

section
variable (pass slice lane index : Nat) (e : Engine)

@[simp] theorem regenerated_wm : (regenerated pass slice index e).wm = e.wm := by
  unfold regenerated; split <;> simp
@[simp] theorem regenerated_pos : (regenerated pass slice index e).pos = e.pos := by
  unfold regenerated; split <;> simp
@[simp] theorem regenerated_zeroB : (regenerated pass slice index e).zeroB = e.zeroB := by
  unfold regenerated; split <;> simp
theorem regenerated_addr : (regenerated pass slice index e).addr = addressesOf pass slice index e := by
  rw [regenerated, addressesOf]; split <;> rfl
theorem regenerated_inp : (regenerated pass slice index e).inp =
    if pass = 0 ∧ slice < 2 ∧ index % 128 = 0 then e.inp.set 6 (e.inp[6] + 1) else e.inp := by
  unfold regenerated; split <;> simp

/-- Neither address generation nor the random value reads the position descriptor. -/
theorem addressesOf_setPosition :
    addressesOf pass slice index (setPosition pass lane slice index e) = addressesOf pass slice index e := rfl

theorem randOf_setPosition (sh : Shape) :
    randOf sh pass slice lane index (setPosition pass lane slice index e) = randOf sh pass slice lane index e := rfl

/-- R140, R147: what `nextRand` gives, in both addressing modes. -/
theorem nextRand_eq {sh : Shape} (ok : ShapeOk sh) : nextRand sh pass lane slice index e =
    (randOf sh pass slice lane index e, regenerated pass slice index e) := by
  by_cases h : pass = 0 ∧ slice < 2
  · by_cases hi : index % 128 = 0 <;>
      simp [nextRand, randOf, addressesOf, regenerated, independent, h, hi]
  · have hr : ¬(pass = 0 ∧ slice < 2 ∧ index % 128 = 0) := fun hr => h ⟨hr.1, hr.2.1⟩
    rw [nextRand, if_neg (by simpa [independent] using h), randOf, if_neg h, regenerated, if_neg hr, prevIndex_eq ok]

/-- R148: a turn is one `fill_block`, with the three indices and the random value in the words of the statement. -/
theorem fillOne_eq {sh : Shape} (ok : ShapeOk sh) (pos : PositionOk sh pass slice lane index) :
    fillOne sh pass slice lane index e =
      fillBlock (previousOf sh lane slice index)
        (referenceOf sh pass slice lane index (randOf sh pass slice lane index e).toNat)
        (curIndex sh lane slice index) (decide (pass ≠ 0))
        (regenerated pass slice index (setPosition pass lane slice index e)) := by
  simp only [fillOne, nextRand_eq _ _ _ _ _ ok, randOf_setPosition, refIndex_eq ok pos, prevIndex_eq ok]

end

/-- R131, R148: the block a turn mixes, `X = ref ^ prev`. -/
def turnInput (sh : Shape) (pass slice lane index : Nat) (e : Engine) : Block :=
  (e.readWM (referenceOf sh pass slice lane index (randOf sh pass slice lane index e).toNat)).xor
    (e.readWM (previousOf sh lane slice index))

section
variable {sh : Shape} {pass slice lane index : Nat} (e : Engine)

theorem readWM_fillOne_other {j : Nat} (h : j ≠ curIndex sh lane slice index) :
    (fillOne sh pass slice lane index e).readWM j = e.readWM j := by
  obtain ⟨b, hb⟩ := fillOne_wm sh pass slice lane index e
  rw [Engine.readWM, hb, Memory.read_write_other _ _ _ _ _ h, Engine.readWM]

variable (hwf : Memory.wf Block.zero e.wm)
include hwf

theorem wf_fillOne : Memory.wf Block.zero (fillOne sh pass slice lane index e).wm := by
  obtain ⟨b, hb⟩ := fillOne_wm sh pass slice lane index e
  rw [hb]
  exact Memory.wf_write _ _ _ _ hwf

/-- R148: the block a turn produces. -/
theorem readWM_fillOne_cur (ok : ShapeOk sh) (pos : PositionOk sh pass slice lane index) :
    (fillOne sh pass slice lane index e).readWM (curIndex sh lane slice index) =
      if pass = 0 then mixed (turnInput sh pass slice lane index e)
      else (mixed (turnInput sh pass slice lane index e)).xor (e.readWM (curIndex sh lane slice index)) := by
  have hwm : (regenerated pass slice index (setPosition pass lane slice index e)).wm = e.wm := by
    rw [regenerated_wm, setPosition_wm]
  rw [fillOne_eq _ _ _ _ _ ok pos, readWM_fillBlock_cur _ _ _ _ _ (hwm ▸ hwf), filled_eq]
  simp only [readWM_congr hwm, decide_eq_true_eq, ite_not, turnInput]

end

theorem setPosition_pos (pass lane slice index : Nat) (e : Engine) : (setPosition pass lane slice index e).pos =
    ⟨BitVec.ofNat 32 pass, BitVec.ofNat 32 lane, BitVec.ofNat 2 slice, BitVec.ofNat 32 index⟩ := rfl

/-- An engine differs from another in the registers that are not known to be the same. -/
theorem engine_eq_of_kept {e e' : Engine} (hz : e'.zeroB = e.zeroB) (hc : e'.blockC = e.blockC)
    (hh : e'.h0buf = e.h0buf) :
    e' = { e with wm := e'.wm, addr := e'.addr, inp := e'.inp, pos := e'.pos, blockR := e'.blockR, blockZ := e'.blockZ } := by
  rw [← hz, ← hc, ← hh]

/-- Settles O58: the produced block from the rule for the current index, the registers from the turn as one `fill_block`
on the engine with the position set and the addresses regenerated. -/
theorem oneTurnProducesTheBlock : Obligations.OneTurnProducesTheBlock := by
  intro sh pass slice lane index e ok pos hwf e' cur rand x
  have he' : e' = fillBlock _ _ _ _ _ := fillOne_eq pass slice lane index e ok pos
  have hcur : e'.readWM cur = if pass = 0 then mixed x else (mixed x).xor (e.readWM cur) :=
    readWM_fillOne_cur e hwf ok pos
  refine ⟨fun k => ?_, fun j hj => readWM_fillOne_other e hj, wf_fillOne e hwf, ?_, ?_, ?_, ?_⟩
  · rw [hcur]
    split
    · rfl
    · exact Block.getElem_xor _ _ k k.isLt
  · rw [he', fillBlock_addr, regenerated_addr, addressesOf_setPosition]
  · rw [he', fillBlock_inp, regenerated_inp, setPosition_inp]
  · rw [he', fillBlock_pos, regenerated_pos, setPosition_pos]
  · refine engine_eq_of_kept ?_ (fillOne_blockC ..) (fillOne_h0buf ..)
    rw [he', fillBlock_zeroB, regenerated_zeroB, setPosition_zeroB]

end Sys2Proof.Machine

/-! PROOFS. The host's accesses to the memories and the idle host (O8, O9, O14), the frame of the fill (O44), and what
the compression and `P` are made of (O55). -/

namespace Sys2Proof.Machine

open Claims

/-! ## The idle host and the host's reads -/

/-- Settles O8: the step's case of an empty queue. -/
theorem nothingChangesWithoutHostAccess : Obligations.NothingChangesWithoutHostAccess := by
  intro s h
  simp only [step, serveNext, h]

/-- Settles O9: the second read meets the registers, OUT and the parameters as the first left them, unchanged. -/
theorem hostReadsAreFreeOfSideEffects : Obligations.HostReadsAreFreeOfSideEffects := by
  rintro s rest a (⟨i, rfl⟩ | ⟨o, rfl⟩) h
  · exact ⟨_, _, step_readReg h, rfl, step_readReg rfl⟩
  · exact ⟨_, _, step_readOut h, rfl, step_readOut rfl⟩

/-! ## Writes of IN -/

theorem step_writeIn {s : State} {rest : List Access} {o : Nat} {b : Byte}
    (h : s.host.pending = .writeIn o b :: rest) : step s = .next (writeInByte o b (taken rest s)) :=
  step_of_pending h

theorem writeInByte_frame (o : Nat) (b : Byte) (s : State) :
    writeInByte o b s = { s with inb := (writeInByte o b s).inb } := by
  unfold writeInByte
  split <;> rfl

/-- R44: what IN holds after a host write, on both sides of `IN_BYTES`. -/
theorem readIn_writeInByte (o : Nat) (b : Byte) (s : State) (h : Memory.wf 0 s.inb) (a : Nat) :
    readIn (writeInByte o b s) a = if a = o ∧ o < s.cfg.inBytes then b else readIn s a := by
  unfold writeInByte
  by_cases ho : o < s.cfg.inBytes
  · rw [if_pos ho, readIn, Memory.read_write 0 s.inb o a b h]
    simp only [ho, and_true, readIn]
  · rw [if_neg ho, if_neg fun hao => ho hao.2]

/-- Settles O14: the write by what IN holds after it, the read by the step that serves it. -/
theorem hostBufferAccesses : Obligations.HostBufferAccesses := by
  intro s rest o hwf
  refine ⟨fun b h => ⟨_, step_writeIn h, writeInByte_frame o b _, ?_⟩, step_readOut⟩
  exact readIn_writeInByte o b (taken rest s) hwf

/-! ## The frame of the fill -/

/-- What the start of a segment and every turn keep of the engine, the fill keeps. -/
theorem fillMemory_keeps_engine {P : Engine → Prop} {sh : Shape}
    (hstart : ∀ pass slice lane e, P e → P (startSegment sh pass slice lane e))
    (hturn : ∀ pass slice lane index e, P e → P (fillOne sh pass slice lane index e))
    (e : Engine) (he : P e) : P (fillMemory sh e) := by
  have segment pass slice lane e (he : P e) : P (fillSegment sh pass slice lane e) :=
    forUp_keeps P _ _ _ _ (fun index e _ _ => hturn pass slice lane index e) (hstart pass slice lane e he)
  have slices pass slice e (he : P e) : P (fillSlice sh pass slice e) :=
    forUp_keeps P _ _ _ _ (fun lane e _ _ => segment pass slice lane e) he
  have passes pass e (he : P e) : P (fillPass sh pass e) :=
    forUp_keeps P _ _ _ _ (fun slice e _ _ => slices pass slice e) he
  exact forUp_keeps P _ _ _ _ (fun pass e _ _ => passes pass e) he

theorem fillMemory_h0buf (sh : Shape) (e : Engine) : (fillMemory sh e).h0buf = e.h0buf :=
  fillMemory_keeps_engine (P := fun e' => e'.h0buf = e.h0buf)
    (fun _ _ _ _ h => (startSegment_h0buf ..).trans h) (fun _ _ _ _ _ h => (fillOne_h0buf ..).trans h) e rfl

theorem fillMemory_blockC (sh : Shape) (e : Engine) : (fillMemory sh e).blockC = e.blockC :=
  fillMemory_keeps_engine (P := fun e' => e'.blockC = e.blockC)
    (fun _ _ _ _ h => (startSegment_blockC ..).trans h) (fun _ _ _ _ _ h => (fillOne_blockC ..).trans h) e rfl

theorem wf_kept (B : Nat) : KeptByWritesBelow B (Memory.wf Block.zero) :=
  fun m i x _ => Memory.wf_write Block.zero m i x

theorem read_beyond_kept {B j : Nat} (hj : B ≤ j) (b : Block) :
    KeptByWritesBelow B fun m => Memory.read Block.zero m j = b :=
  fun m i x hi h => (Memory.read_write_other Block.zero m i j x (by omega)).trans h

/-- Settles O44: both facts about WM are kept by a write below `memBlocks`, and no turn writes `H0BUF` or `C`. -/
theorem fillStaysInsideTheRegion : Obligations.FillStaysInsideTheRegion :=
  fun sh e ok hwf =>
    ⟨fun _ hj => fillMemory_keeps ok (read_beyond_kept hj _) e rfl, fillMemory_keeps ok (wf_kept _) e hwf,
      fillMemory_h0buf sh e, fillMemory_blockC sh e⟩

/-! ## The eight applications

The statement writes each application as updates of single words, the model as a function of four words. At four
different places the two are the same (`gAt_eq`, `gbAt_eq`), and the eight applications follow at once for both. -/

/-- A function of four words applied at four places of a vector. -/
def onPlaces (g : Quad → Quad) (a b c d : Fin 16) (v : Fin 16 → Word) : Fin 16 → Word :=
  let q := g ⟨v a, v b, v c, v d⟩
  Function.update (Function.update (Function.update (Function.update v a q.a) d q.d) c q.c) b q.b


/-- R82: at four different places a step reads what the steps before it left there, as `G` does on its four words. -/
theorem gAt_eq (x y : Word) {a b c d : Fin 16} (h : [a, b, c, d].Nodup) :
    gAt x y a b c d = onPlaces (mixG x y) a b c d := by
  funext v k
  simp only [gAt, onPlaces, mixG]
  grind [Function.update_apply]

/-- R126: the same for `GB`. -/
theorem gbAt_eq {a b c d : Fin 16} (h : [a, b, c, d].Nodup) : gbAt a b c d = onPlaces mixGB a b c d := by
  funext v k
  simp only [gbAt, onPlaces, mixGB]
  grind [Function.update_apply]

/-- The places of each of the eight applications are all different. -/
theorem eightTimes_congr {g g' : Fin 8 → Fin 16 → Fin 16 → Fin 16 → Fin 16 → (Fin 16 → Word) →
    Fin 16 → Word}
    (h : ∀ i {a b c d}, [a, b, c, d].Nodup → g i a b c d = g' i a b c d) : eightTimes g = eightTimes g' := by
  funext v
  simp (disch := decide) only [eightTimes, h]

theorem Vec16.get_ofFn (f : Fin 16 → Word) : (Vec16.ofFn f).get = f := by
  funext k
  fin_cases k <;> rfl

/-- R83, R127: columns, then diagonals, are the eight applications one after another. -/
theorem columnsThenDiagonals_get (g : Fin 8 → Quad → Quad) (v : Vec16) :
    (v.columnsThenDiagonals g).get = eightTimes (fun i => onPlaces (g i)) v.get := by
  have heq : v.columnsThenDiagonals g = Vec16.ofFn (eightTimes (fun i => onPlaces (g i)) v.get) := rfl
  rw [heq, Vec16.get_ofFn]

theorem permP_get (v : Vec16) : (permP v).get = eightTimes (fun _ => gbAt) v.get := by
  rw [permP, columnsThenDiagonals_get, eightTimes_congr fun _ => gbAt_eq]

/-! ## The compression -/

theorem blakeRound_get (m : Vector Word 16) (r : Nat) (v : Vec16) :
    (blakeRound m r v).get = roundAt (fun i => m[i]) r v.get := by
  rw [blakeRound, columnsThenDiagonals_get, roundAt, eightTimes_congr fun _ => gAt_eq _ _]
  rfl

theorem workInit_get (u : B2bUnit) : (workInit u.h u.t0 u.t1 u.f0 u.f1).get = workStart u := by
  funext k
  fin_cases k <;> simp [workInit, workStart, Vec16.get, Vec16.toVector]

theorem messageWords_getElem (blk : List Byte) (i : Fin 16) : (messageWords blk)[i] = load64le blk (8 * i.val) := by
  simp [messageWords]

theorem twelveRounds_get (m : Vector Word 16) (v : Vec16) :
    (twelveRounds m v).get = (List.range 12).foldl (fun v r => roundAt (fun i => m[i]) r v) v.get := by
  rw [twelveRounds, forUp_eq_foldl, ← List.range_eq_range']
  exact (List.foldl_hom Vec16.get fun v r => (blakeRound_get m r v).symm).symm

/-- R85: a compression writes `h` only. -/
theorem compress_frame (blk : List Byte) (u : B2bUnit) : compress blk u = { u with h := (compress blk u).h } := rfl

/-- R85: the working vector a compression folds into `h`. -/
theorem workEnd_eq (blk : List Byte) (u : B2bUnit) :
    (twelveRounds (messageWords blk) (workInit u.h u.t0 u.t1 u.f0 u.f1)).get = workEnd blk u := by
  simp only [twelveRounds_get, workInit_get, messageWords_getElem, workEnd]

theorem foldIntoChain_getElem (h : Vector Word 8) (v : Vec16) (i : Fin 8) :
    (foldIntoChain h v)[i] = h[i] ^^^ v.get ⟨i.val, by omega⟩ ^^^ v.get ⟨i.val + 8, by omega⟩ := by
  simp [foldIntoChain, Vec16.get]

/-- Settles O55: `G` and `GB` at four different places, the order of the eight applications, the twelve rounds as a
fold. -/
theorem compressionAndPermutationFollowTheirSteps : Obligations.CompressionAndPermutationFollowTheirSteps := by
  refine ⟨fun m r v => congrFun (blakeRound_get m r v), fun blk u => ⟨fun i => ?_, compress_frame blk u⟩,
    fun v => congrFun (permP_get v)⟩
  rw [← workEnd_eq]
  exact foldIntoChain_getElem u.h _ i

end Sys2Proof.Machine

/-! PROOFS. The command format (O1 to O4) and what an illegal word does (O6). A word is its three fields side by side, so it
is the word of a command when its fields are the command's (`eq_encode_iff`); the decoder accepts exactly the words of the
well-formed commands (`decode_eq_ok_iff`). -/

namespace Sys2Proof.Laws

/-! ## A word and its fields -/

theorem append_eq_append_iff {v n : Nat} {a c : BitVec v} {b d : BitVec n} : a ++ b = c ++ d ↔ a = c ∧ b = d := by
  refine ⟨fun h => ⟨?_, ?_⟩, fun ⟨ha, hb⟩ => by rw [ha, hb]⟩
  · simpa only [BitVec.extractLsb'_append_eq_left] using congrArg (BitVec.extractLsb' n v) h
  · simpa only [BitVec.extractLsb'_append_eq_right] using congrArg (BitVec.extractLsb' 0 n) h

/-- R60: the fields leave out no bit of the word. -/
theorem fields_append (w : Word32) : (rsvField w ++ immField w) ++ opField w = w := by
  rw [rsvField, immField, opField, BitVec.extractLsb'_append_extractLsb'_eq_extractLsb' (start₂ := 16) rfl,
    BitVec.extractLsb'_append_extractLsb'_eq_extractLsb' (start₂ := 8) rfl, BitVec.extractLsb'_eq_self]

theorem eq_encode_iff (w : Word32) (i : Instr) :
    w = encode i ↔ rsvField w = 0 ∧ immField w = immediate i ∧ opField w = opcode i := by
  conv_lhs => rw [← fields_append w, encode, append_eq_append_iff, append_eq_append_iff, and_assoc]

/-! ## The decoder and the encoder -/

/-- R63: the operand of a well-formed `B2B_INIT` is the value of its field. -/
theorem eq_immediate_b2bInit_iff (m : BitVec 8) (n : Nat) :
    m = immediate (.b2bInit n) ∧ (Instr.b2bInit n).wf ↔ n = m.toNat := by
  rw [immediate, Instr.wf, ← BitVec.toNat_inj, BitVec.toNat_ofNat]
  have := m.isLt
  omega

/-- R61 check (3): the answer for a command without an operand. -/
theorem withoutImm_eq_ok_iff {w : Word32} {i j : Instr} : withoutImm w j = .ok i ↔ immField w = 0 ∧ j = i := by
  unfold withoutImm
  split
  next h => simp only [h, true_and, Except.ok.injEq]
  next h => simp only [h, false_and, reduceCtorEq]

theorem decode_encode {i : Instr} (hi : i.wf) : decode (encode i) = .ok i := by
  obtain ⟨hrsv, himm, hop⟩ := (eq_encode_iff _ i).1 rfl
  cases i with
  | b2bInit n =>
    have hn : n = (immediate (.b2bInit n)).toNat := (eq_immediate_b2bInit_iff _ n).1 ⟨rfl, hi⟩
    simp [decode, hrsv, himm, hop, opcode, ← hn]
  | b2bUpdate | b2bFinal | b2bLong | a2idHash =>
    simp [decode, withoutImm_eq_ok_iff, hrsv, himm, hop, opcode, immediate]

theorem decode_fields {w : Word32} {i : Instr} (h : decode w = .ok i) :
    (rsvField w = 0 ∧ immField w = immediate i ∧ opField w = opcode i) ∧ i.wf := by
  unfold decode at h
  split at h
  next => cases h
  next hrsv =>
    have hrsv := not_not.1 hrsv
    split at h
    case h_1 hop =>
      cases h
      obtain ⟨himm, hn⟩ := (eq_immediate_b2bInit_iff (immField w) _).2 rfl
      exact ⟨⟨hrsv, himm, BitVec.eq_of_toNat_eq hop⟩, hn⟩
    case h_6 => cases h
    all_goals
      next hop =>
        obtain ⟨himm, rfl⟩ := withoutImm_eq_ok_iff.1 h
        exact ⟨⟨hrsv, himm, BitVec.eq_of_toNat_eq hop⟩, trivial⟩

/-- R61, R62: the decoder accepts the words of the well-formed commands and no others. -/
theorem decode_eq_ok_iff (w : Word32) (i : Instr) : decode w = .ok i ↔ w = encode i ∧ i.wf := by
  refine ⟨fun h => ?_, ?_⟩
  · obtain ⟨hfields, hi⟩ := decode_fields h
    exact ⟨(eq_encode_iff w i).2 hfields, hi⟩
  · rintro ⟨rfl, hi⟩
    exact decode_encode hi

/-- Settles O1: every field of the word is the command's, and the operand fits its field. -/
theorem decodeOfEncodeIsIdentity : Obligations.DecodeOfEncodeIsIdentity :=
  fun _ => decode_encode

/-- Settles O2: the accepted words are the words of the well-formed commands. -/
theorem encodeOfDecodeIsIdentity : Obligations.EncodeOfDecodeIsIdentity := by
  intro w i h
  obtain ⟨hw, hi⟩ := (decode_eq_ok_iff w i).1 h
  exact ⟨hw.symm, hi⟩

/-! ## Masks -/

/-- R62: the mask of `B2B_INIT` lets RSV and OP through. -/
theorem mask_b2bInit_iff (w : Word32) : w &&& 0xFFFF00FF = 0x00000001 ↔ rsvField w = 0 ∧ opField w = 0x01 := by
  have hmask : (0xFFFF00FF : Word32) = (BitVec.allOnes 16 ++ 0#8) ++ BitVec.allOnes 8 := rfl
  have hmatch : (0x00000001 : Word32) = (0#16 ++ 0#8) ++ 0x01#8 := rfl
  conv_lhs =>
    rw [← fields_append w, hmask, hmatch, BitVec.and_append, BitVec.and_append, BitVec.and_allOnes, BitVec.and_allOnes,
      BitVec.and_zero, append_eq_append_iff, append_eq_append_iff]
  simp

/-- R62: the mask of the other four commands lets the whole word through. -/
theorem and_fullMask (w : Word32) : w &&& 0xFFFFFFFF = w := BitVec.and_allOnes

theorem decode_eq_b2bInit_iff (w : Word32) (n : Nat) :
    decode w = .ok (.b2bInit n) ↔ (rsvField w = 0 ∧ opField w = 0x01) ∧ n = (immField w).toNat := by
  rw [decode_eq_ok_iff, eq_encode_iff, ← eq_immediate_b2bInit_iff]
  simp only [opcode, and_assoc, and_left_comm]

/-- R62: under the full mask a well-formed command is selected by its own word. -/
theorem decode_eq_ok_iff_fullMask (w : Word32) {i : Instr} (hi : i.wf) :
    decode w = .ok i ↔ w &&& 0xFFFFFFFF = encode i := by
  rw [decode_eq_ok_iff, and_fullMask, and_iff_left hi]

/-- Settles O3: the row of `B2B_INIT` by the fields its mask keeps, the other four by the word as a whole. -/
theorem decodeFollowsMaskAndMatch : Obligations.DecodeFollowsMaskAndMatch := by
  refine fun w => ⟨fun n => ?_, decode_eq_ok_iff_fullMask w trivial, decode_eq_ok_iff_fullMask w trivial,
    decode_eq_ok_iff_fullMask w trivial, decode_eq_ok_iff_fullMask w trivial⟩
  obtain ⟨-, himm, -⟩ := fields_toNat w
  rw [decode_eq_b2bInit_iff, mask_b2bInit_iff, himm]

/-- Settles O4: eleven closed words. -/
theorem specWordsDecodeAsListed : Obligations.SpecWordsDecodeAsListed := by
  unfold Obligations.SpecWordsDecodeAsListed
  decide

/-! ## Illegal words -/

/-- R65: no command's word has one of the three faults. -/
theorem encode_legal (i : Instr) :
    ¬((encode i).toNat / 65536 ≠ 0 ∨ (encode i).toNat % 256 ∉ [0x01, 0x02, 0x03, 0x04, 0x10] ∨
      ((encode i).toNat % 256 ≠ 0x01 ∧ (encode i).toNat / 256 % 256 ≠ 0)) := by
  obtain ⟨hop, himm, hrsv⟩ := fields_toNat (encode i)
  obtain ⟨hrsv', himm', hop'⟩ := (eq_encode_iff _ i).1 rfl
  rw [← hop, ← himm, ← hrsv, hrsv', himm', hop']
  cases i <;> simp [opcode, immediate]

/-- Settles O6: a word with one of the faults is no command's, so the decoder rejects it. -/
theorem illegalWordChangesOnlyCmdStatusErr : Obligations.IllegalWordChangesOnlyCmdStatusErr := by
  intro s rest w hp hbad
  rw [Machine.step_writeCmd hp]
  cases hd : decode w with
  | error r => exact Machine.runWord_error hd _
  | ok i =>
    obtain ⟨rfl, -⟩ := (decode_eq_ok_iff w i).1 hd
    exact absurd hbad (encode_legal i)

end Sys2Proof.Laws

/-! PROOFS. The BLAKE2b unit: the counter (O18), `B2B_INIT` (O19), `B2B_UPDATE` (O20, O22), absorbing byte by byte (O21) and
in blocks (O23), `B2B_FINAL` (O24), the three together (O25), and the frames of the commands that use the unit (O51, O52).
Bytes of `buf` at and beyond `buflen` are read by no rule, so `padBuf` puts a unit in a normal form: two units that differ in
such bytes only have the same one, absorbing keeps it so, and the digest is a function of it. -/

namespace Sys2Proof.Machine

open Claims

/-! ## The byte counter -/

/-- R11: the two halves as one number. -/
def B2bUnit.count (u : B2bUnit) : Nat := u.t0.toNat + 2 ^ 64 * u.t1.toNat

theorem addCount_t1 (n : Nat) (u : B2bUnit) :
    (addCount n u).t1 = if (u.t0 + BitVec.ofNat 64 n).toNat < n then u.t1 + 1 else u.t1 := rfl

theorem addCount_frame (n : Nat) (u : B2bUnit) :
    addCount n u = { u with t0 := (addCount n u).t0, t1 := (addCount n u).t1 } := rfl

/-- R87: the new `t[0]` is below `n` exactly when the low half overflowed, which is when the high half takes a carry. -/
theorem count_addCount (n : Nat) (hn : n < 2 ^ 64) (u : B2bUnit) : (addCount n u).count = (u.count + n) % 2 ^ 128 := by
  have h0 := u.t0.isLt
  have h1 := u.t1.isLt
  have hlow : (u.t0 + BitVec.ofNat 64 n).toNat = (u.t0.toNat + n) % 2 ^ 64 := by
    rw [BitVec.toNat_add, toNat_ofNat_of_lt hn]
  have hhigh : (u.t1 + 1).toNat = (u.t1.toNat + 1) % 2 ^ 64 := BitVec.toNat_add _ _
  rw [B2bUnit.count, B2bUnit.count, addCount_t0, addCount_t1]
  split
  next hcarry => rw [hlow] at hcarry ⊢; rw [hhigh]; omega
  next hcarry => rw [hlow] at hcarry ⊢; omega

/-- Settles O18: a carry out of the low half, or none. -/
theorem counterIncrementIs128Bit : Obligations.CounterIncrementIs128Bit :=
  fun u n hn => ⟨count_addCount n (by omega) u, addCount_frame n u⟩

/-! ## The outcomes of the commands -/

theorem badDigestLen_eq_true_iff (n : Nat) : badDigestLen n = true ↔ n = 0 ∨ 64 < n := decide_eq_true_iff

theorem srcPastEnd_eq_true_iff (s : State) : srcPastEnd s = true ↔ ¬ SrcInRange s := by
  rw [srcPastEnd, decide_eq_true_iff, SrcInRange, Nat.not_le]

theorem srcBytes_eq_sourceBytes (s : State) : srcBytes s = sourceBytes s := window_eq_map s _ _

theorem exec_b2bInit_starts {n : Nat} (h1 : 1 ≤ n) (h2 : n ≤ 64) (s : State) :
    exec (.b2bInit n) s = .next (reported 0 { s with b2b := initUnit n }) := by
  have hn : ¬ badDigestLen n = true := by rw [badDigestLen_eq_true_iff]; omega
  rw [exec, execB2bInit, if_neg hn, complete, finish_eq_reported]

theorem exec_b2bInit_refuses {n : Nat} (h : n = 0 ∨ 64 < n) (s : State) :
    exec (.b2bInit n) s = .next (reported 18 s) := by
  rw [exec, execB2bInit, if_pos ((badDigestLen_eq_true_iff n).2 h), raiseErr, finish_eq_reported, ErrKind.code]

theorem exec_b2bUpdate_idle {s : State} (ha : s.b2b.active = false) :
    exec .b2bUpdate s = .next (reported 17 s) := by
  rw [exec, execB2bUpdate, ha, ← finish_eq_reported]
  rfl

theorem exec_b2bFinal_idle {s : State} (ha : s.b2b.active = false) :
    exec .b2bFinal s = .next (reported 17 s) := by
  rw [exec, execB2bFinal, ha, ← finish_eq_reported]
  rfl

section
variable {s : State} (ha : s.b2b.active = true)
include ha

theorem exec_b2bUpdate_pastEnd (hr : ¬ SrcInRange s) : exec .b2bUpdate s = .next (reported 19 s) := by
  have hp := (srcPastEnd_eq_true_iff s).2 hr
  rw [exec, execB2bUpdate, ha, hp, ← finish_eq_reported]
  rfl

theorem exec_b2bUpdate_absorbs (hr : SrcInRange s) :
    exec .b2bUpdate s = .next (reported 0 { s with b2b := absorb (sourceBytes s) s.b2b }) := by
  have hp : srcPastEnd s = false := Bool.eq_false_iff.2 fun h => (srcPastEnd_eq_true_iff s).1 h hr
  rw [exec, execB2bUpdate, ha, hp, srcBytes_eq_sourceBytes, ← finish_eq_reported]
  rfl

theorem exec_b2bFinal_delivers : exec .b2bFinal s =
    .next (reported 0 (clearUnit (writeResult s.b2b.outlen.toNat (digest s.b2b) s))) := by
  rw [exec, execB2bFinal, ha, ← finish_eq_reported]
  rfl

end

/-! ## `B2B_INIT` and `B2B_UPDATE` -/

/-- R86: the parameter word enters `h[0]` only. -/
theorem initUnit_h (n : Nat) : (initUnit n).h[0] = blakeIV[0] ^^^ 0x0000000001010000 ^^^ BitVec.ofNat 64 n ∧
    ∀ i : Fin 8, i ≠ 0 → (initUnit n).h[i] = blakeIV[i] :=
  ⟨Vector.getElem_set_self _, fun i hi => Vector.getElem_set_ne (by omega) i.isLt fun h => hi (Fin.ext h.symm)⟩

/-- Settles O19: the started unit, register by register. -/
theorem initStartsAHash : Obligations.InitStartsAHash := by
  intro s n
  refine ⟨fun h1 h2 => ?_, fun h => exec_b2bInit_refuses h s⟩
  obtain ⟨hfirst, hother⟩ := initUnit_h n
  exact ⟨initUnit n, exec_b2bInit_starts h1 h2 s, hfirst, hother, rfl, rfl, rfl, rfl,
    fun i => Vector.getElem_replicate i.isLt, rfl, initUnit_outlen n h2, rfl⟩

/-- Settles O20: one case per outcome of the command. -/
theorem updateAbsorbsTheSourceWindow : Obligations.UpdateAbsorbsTheSourceWindow :=
  fun _ => ⟨exec_b2bUpdate_idle, exec_b2bUpdate_pastEnd, exec_b2bUpdate_absorbs⟩

theorem window_append (s : State) (off len1 len2 : Nat) :
    window s off (len1 + len2) = window s off len1 ++ window s (off + len1) len2 := by
  rw [window, window, window, ← List.map_append, List.range'_append_1]

/-- The host has set the source window. -/
def withSource (off len : Nat) (s : State) : State :=
  { s with reg := { s.reg with srcOff := BitVec.ofNat 32 off, srcLen := BitVec.ofNat 32 len } }

/-- An update of a window inside IN absorbs that window of IN. -/
theorem exec_b2bUpdate_withSource {s : State} {off len : Nat} (ha : s.b2b.active = true)
    (hr : off + len ≤ s.cfg.inBytes) (hin : s.cfg.inBytes < 2 ^ 32) :
    exec .b2bUpdate (withSource off len s) =
      .next (reported 0 { withSource off len s with b2b := absorb (window s off len) s.b2b }) := by
  have hoff : (withSource off len s).reg.srcOff.toNat = off := toNat_ofNat_of_lt (by omega)
  have hlen : (withSource off len s).reg.srcLen.toNat = len := toNat_ofNat_of_lt (by omega)
  have hrange : SrcInRange (withSource off len s) := by rw [SrcInRange, hoff, hlen]; exact hr
  have hbytes : sourceBytes (withSource off len s) = window s off len := by
    rw [← srcBytes_eq_sourceBytes, srcBytes, hoff, hlen]; rfl
  rw [exec_b2bUpdate_absorbs (s := withSource off len s) ha hrange, hbytes]
  rfl

/-- Settles O22: the first update leaves IN as it was, so the second absorbs the rest of the joined window. -/
theorem twoUpdatesAreOneOfTheJoinedWindow : Obligations.TwoUpdatesAreOneOfTheJoinedWindow := by
  intro s s1 off len1 len2 hfit hin ha win hfirst
  obtain rfl := next_inj ((exec_b2bUpdate_withSource ha (by omega) hin).symm.trans hfirst)
  refine ⟨_, _, exec_b2bUpdate_withSource ((absorb_active _ _).trans ha) hfit hin,
    exec_b2bUpdate_withSource ha (by omega) hin, ?_⟩
  show absorb (window s (off + len1) len2) (absorb (window s off len1) s.b2b) =
    absorb (window s off (len1 + len2)) s.b2b
  rw [window_append, absorb_concat]

/-! ## Absorbing byte by byte -/

/-- R88: of the message the first `whole` bytes, whole blocks, are counted, and the rest stands in the buffer. -/
structure Absorbed (msg : List Byte) (whole : Nat) (u : B2bUnit) : Prop where
  blocks  : 128 ∣ whole
  split   : msg.length = whole + u.buflen.toNat
  room    : u.buflen.toNat ≤ 128
  counted : u.count = whole % 2 ^ 128
  bytes   : ∀ (j : Nat) (hj : j < 128), j < u.buflen.toNat → u.buf[j] = msg.getD (whole + j) 0

theorem absorbed_initUnit (n : Nat) : Absorbed [] 0 (initUnit n) where
  blocks := dvd_zero 128
  split := rfl
  room := Nat.zero_le _
  counted := rfl
  bytes := fun _ _ h => absurd h (Nat.not_lt_zero _)

theorem Absorbed.flush {msg : List Byte} {whole : Nat} {u : B2bUnit} (h : Absorbed msg whole u) :
    ∃ whole', Absorbed msg whole' (flushFull u) := by
  by_cases hfull : u.buflen = 128
  · refine ⟨whole + 128, ?_⟩
    rw [flushFull_full u hfull]
    exact {
      blocks := h.blocks.add (Nat.dvd_refl 128)
      split := by rw [h.split, hfull]; rfl
      room := Nat.zero_le _
      counted := by
        show (addCount 128 u).count = _
        rw [count_addCount 128 (by omega), h.counted, Nat.mod_add_mod]
      bytes := fun _ _ hj => absurd hj (Nat.not_lt_zero _) }
  · exact ⟨whole, by rwa [flushFull_other u hfull]⟩

theorem absorbByte_eq_of_room {u : B2bUnit} (h : u.buflen.toNat < 128) (x : Byte) :
    absorbByte u x = { u with buf := u.buf.setIfInBounds u.buflen.toNat x, buflen := u.buflen + 1 } := by
  have hne : u.buflen ≠ 128 := fun e => absurd (e ▸ h) (by decide)
  rw [absorbByte, flushFull_other u hne]

theorem toNat_buflen_succ {u : B2bUnit} (h : u.buflen.toNat < 128) : (u.buflen + 1).toNat = u.buflen.toNat + 1 := by
  rw [BitVec.toNat_add, show (1 : BitVec 8).toNat = 1 from rfl]; omega

/-- A flush leaves room, so a second one does nothing. -/
theorem flushFull_idem (u : B2bUnit) : flushFull (flushFull u) = flushFull u := by
  by_cases hfull : u.buflen = 128
  · rw [flushFull_full u hfull]
    exact flushFull_other _ (by decide : (0 : BitVec 8) ≠ 128)
  · rw [flushFull_other u hfull, flushFull_other u hfull]

theorem absorbByte_flushFull (u : B2bUnit) (x : Byte) : absorbByte (flushFull u) x = absorbByte u x := by
  rw [absorbByte, absorbByte, flushFull_idem]

theorem Absorbed.concat_of_room {msg : List Byte} {whole : Nat} {u : B2bUnit} (h : Absorbed msg whole u)
    (hroom : u.buflen.toNat < 128) (x : Byte) : Absorbed (msg ++ [x]) whole (absorbByte u x) := by
  have hsplit := h.split
  rw [absorbByte_eq_of_room hroom]
  exact {
    blocks := h.blocks
    split := by
      show _ = whole + (u.buflen + 1).toNat
      rw [toNat_buflen_succ hroom, List.length_append, hsplit]; rfl
    room := by
      show (u.buflen + 1).toNat ≤ 128
      rw [toNat_buflen_succ hroom]; exact hroom
    counted := h.counted
    bytes := by
      intro j hj hlt
      replace hlt : j < u.buflen.toNat + 1 := by rwa [← toNat_buflen_succ hroom]
      show (u.buf.setIfInBounds u.buflen.toNat x)[j] = _
      rcases Nat.lt_succ_iff_lt_or_eq.1 hlt with hold | rfl
      · rw [Vector.getElem_setIfInBounds_ne hj (by omega), h.bytes j hj hold, List.getD_append _ _ _ _ (by omega)]
      · rw [Vector.getElem_setIfInBounds_self, ← hsplit, List.getD_append_right _ _ _ _ (Nat.le_refl _), Nat.sub_self]
        rfl }

theorem Absorbed.concat {msg : List Byte} {whole : Nat} {u : B2bUnit} (h : Absorbed msg whole u) (x : Byte) :
    ∃ whole', Absorbed (msg ++ [x]) whole' (absorbByte u x) := by
  obtain ⟨whole', h'⟩ := h.flush
  exact ⟨whole', absorbByte_flushFull u x ▸ h'.concat_of_room (flushFull_room u h.room) x⟩

theorem exists_absorbed (n : Nat) (msg : List Byte) : ∃ whole, Absorbed msg whole (absorb msg (initUnit n)) := by
  induction msg using List.reverseRecOn with
  | nil => exact ⟨0, absorbed_initUnit n⟩
  | append_singleton msg x ih =>
    obtain ⟨whole, h⟩ := ih
    rw [absorb_concat]
    exact h.concat x

/-- R88: the byte that has just come is in the buffer. -/
theorem absorb_buflen_pos {msg : List Byte} (h : 0 < msg.length) {u : B2bUnit} (hu : u.buflen.toNat ≤ 128) :
    0 < (absorb msg u).buflen.toNat := by
  induction msg generalizing u with
  | nil => exact absurd h (Nat.lt_irrefl 0)
  | cons x xs ih =>
    have hx := absorbByte_buflen u x hu
    have hroom := flushFull_room u hu
    rw [absorb_cons]
    cases xs with
    | nil => rw [absorb_nil]; omega
    | cons y ys => exact ih (Nat.succ_pos _) (by omega)

/-- Settles O21: the rest in the buffer is what is left over from whole blocks, and is empty for the empty message only. -/
theorem absorbedBytesAreBufferedAndCounted : Obligations.AbsorbedBytesAreBufferedAndCounted := by
  intro n msg h1 h2 u
  obtain ⟨whole, ⟨k, rfl⟩, hsplit, hroom, hcount, hbytes⟩ : ∃ whole, Absorbed msg whole u := exists_absorbed n msg
  have hwhole : msg.length - u.buflen.toNat = 128 * k := by omega
  refine ⟨fun h0 => ?_, fun hpos => ?_, ?_, ?_, absorb_f0 _ _, absorb_f1 _ _, ?_, absorb_active _ _⟩
  · rw [show u = absorb msg (initUnit n) from rfl, List.length_eq_zero_iff.1 h0, absorb_nil]
  · have hu : 0 < u.buflen.toNat := absorb_buflen_pos hpos (Nat.zero_le _)
    omega
  · rw [hwhole]; exact hcount
  · rw [hwhole]; exact hbytes
  · rw [absorb_outlen, initUnit_outlen n h2]

/-! ## The normal form of a unit -/

theorem padBuf_getElem (u : B2bUnit) {i : Nat} (hi : i < 128) :
    (padBuf u).buf[i] = if i < u.buflen.toNat then u.buf[i] else 0 := Vector.getElem_ofFn hi

/-- The normal form does not depend on the bytes at and beyond `buflen`. -/
theorem padBuf_withBuf_congr (u : B2bUnit) {b b' : Vector Byte 128}
    (h : ∀ (i : Nat) (hi : i < 128), i < u.buflen.toNat → b[i] = b'[i]) :
    padBuf { u with buf := b } = padBuf { u with buf := b' } := by
  have hbuf : (padBuf { u with buf := b }).buf = (padBuf { u with buf := b' }).buf := by
    refine Vector.ext fun i hi => ?_
    rw [padBuf_getElem, padBuf_getElem]
    exact ite_congr rfl (h i hi) fun _ => rfl
  exact congrArg (fun d => { u with buf := d }) hbuf

theorem padBuf_padBuf (u : B2bUnit) : padBuf (padBuf u) = padBuf u :=
  padBuf_withBuf_congr u fun _ hi hlt => (padBuf_getElem u hi).trans (if_pos hlt)

/-- Units have the same normal form when they differ in bytes of `buf` at and beyond `buflen` only. -/
theorem padBuf_eq_iff {u v : B2bUnit} : padBuf u = padBuf v ↔
    u = { v with buf := u.buf } ∧ ∀ (i : Nat) (hi : i < 128), i < v.buflen.toNat → u.buf[i] = v.buf[i] := by
  refine ⟨fun h => ?_, fun ⟨hu, hbytes⟩ => by rw [hu]; exact padBuf_withBuf_congr v hbytes⟩
  have hu : u = { v with buf := u.buf } :=
    calc u = { padBuf u with buf := u.buf } := by rw [padBuf]
      _ = { padBuf v with buf := u.buf } := by rw [h]
      _ = { v with buf := u.buf } := by rw [padBuf]
  have hlen : u.buflen = v.buflen := by rw [hu]
  refine ⟨hu, fun i hi hlt => ?_⟩
  have hbyte : (padBuf u).buf[i] = (padBuf v).buf[i] := by rw [h]
  rwa [padBuf_getElem, padBuf_getElem, hlen, if_pos hlt, if_pos hlt] at hbyte

@[simp] theorem padBuf_buflen (u : B2bUnit) : (padBuf u).buflen = u.buflen := by rw [padBuf]

/-- Padding, counting and the flag of R90 commute. -/
theorem padBuf_addCount (n : Nat) (f : Word) (u : B2bUnit) :
    padBuf { addCount n u with f0 := f } = { addCount n (padBuf u) with f0 := f } := by
  unfold padBuf addCount
  rfl

/-- R90: the last compression pads the buffer itself. -/
theorem lastCompression_padBuf (u : B2bUnit) : lastCompression (padBuf u) = lastCompression u := by
  unfold lastCompression
  simp only [padBuf_addCount, padBuf_padBuf, padBuf_buflen]

theorem digest_congr {u v : B2bUnit} (h : padBuf u = padBuf v) : digest u = digest v := by
  have hlen : u.outlen = v.outlen := by rw [(padBuf_eq_iff.1 h).1]
  rw [digest, digest, ← lastCompression_padBuf u, ← lastCompression_padBuf v, h, hlen]

theorem padBuf_absorbByte_congr {u v : B2bUnit} (h : padBuf u = padBuf v) (hv : v.buflen.toNat ≤ 128) (x : Byte) :
    padBuf (absorbByte u x) = padBuf (absorbByte v x) := by
  obtain ⟨hu, hbytes⟩ := padBuf_eq_iff.1 h
  rcases Nat.lt_or_eq_of_le hv with hroom | hfull
  · rw [hu, absorbByte_eq_of_room hroom, absorbByte_eq_of_room (u := { v with buf := u.buf }) hroom]
    refine padBuf_withBuf_congr { v with buflen := v.buflen + 1 } fun i hi hlt => ?_
    replace hlt : i < v.buflen.toNat + 1 := by rwa [← toNat_buflen_succ hroom]
    show (u.buf.setIfInBounds v.buflen.toNat x)[i] = (v.buf.setIfInBounds v.buflen.toNat x)[i]
    rw [Vector.getElem_setIfInBounds hi, Vector.getElem_setIfInBounds hi]
    exact ite_congr rfl (fun _ => rfl) fun hne => hbytes i hi (by omega)
  · have hbuf : u.buf = v.buf := Vector.ext fun i hi => hbytes i hi (by omega)
    rw [hu, hbuf]

/-- Absorbing reads the normal form only. -/
theorem padBuf_absorb_congr (xs : List Byte) {u v : B2bUnit} (h : padBuf u = padBuf v) (hv : v.buflen.toNat ≤ 128) :
    padBuf (absorb xs u) = padBuf (absorb xs v) := by
  induction xs generalizing u v with
  | nil => exact h
  | cons x xs ih =>
    have hroom := flushFull_room v hv
    have hbyte := absorbByte_buflen v x hv
    exact ih (padBuf_absorbByte_congr h hv x) (by omega)

/-! ## Absorbing in blocks -/

/-- R88, R92: bytes that fit into the buffer are appended, in either form. -/
theorem absorb_eq_appendToBuf (s : List Byte) (u : B2bUnit) (h : u.buflen.toNat + s.length ≤ 128) :
    absorb s u = appendToBuf s u := by
  induction s generalizing u with
  | nil => rw [absorb_nil, appendToBuf, List.length_nil, writeRun_nil, BitVec.add_zero]
  | cons x s ih =>
    rw [List.length_cons] at h
    have hroom : u.buflen.toNat < 128 := by omega
    have hsucc := toNat_buflen_succ hroom
    rw [absorb_cons, absorbByte_eq_of_room hroom, ih _ (by simp only [hsucc]; omega)]
    simp only [appendToBuf, hsucc, writeRun, List.length_cons, BitVec.add_assoc, Nat.add_comm s.length 1,
      BitVec.ofNat_add]
    rfl

/-- R88: a full buffer is compressed at the next byte, whenever that comes. -/
theorem absorb_flushFull {s : List Byte} (h : 0 < s.length) (u : B2bUnit) : absorb s (flushFull u) = absorb s u := by
  cases s with
  | nil => exact absurd h (Nat.lt_irrefl 0)
  | cons x s => rw [absorb_cons, absorb_cons, absorbByte_flushFull]

/-- R92: the buffer filled up with the bytes `bs` and compressed. -/
def filledUp (bs : List Byte) (u : B2bUnit) : B2bUnit :=
  let v := { u with buf := writeRun bs u.buflen.toNat u.buf }
  { compress v.buf.toList (addCount 128 v) with buflen := 0 }

theorem flushFull_appendToBuf {bs : List Byte} {u : B2bUnit} (h : u.buflen.toNat + bs.length = 128) :
    flushFull (appendToBuf bs u) = filledUp bs u := by
  have hfull : (appendToBuf bs u).buflen = 128 := by
    refine BitVec.eq_of_toNat_eq ?_
    rw [appendToBuf, BitVec.toNat_add, toNat_ofNat_of_lt (by omega), h]
    rfl
  rw [flushFull_full _ hfull]
  rfl

/-- R88: the byte form compresses the bytes that fill the buffer when more follow. -/
theorem absorb_append_of_fills {bs rest : List Byte} {u : B2bUnit} (h : u.buflen.toNat + bs.length = 128)
    (hrest : 0 < rest.length) : absorb (bs ++ rest) u = absorb rest (filledUp bs u) := by
  rw [absorb_concat, absorb_eq_appendToBuf bs u h.le, ← absorb_flushFull hrest, flushFull_appendToBuf h]

theorem filledUp_of_empty {bs : List Byte} {u : B2bUnit} (h0 : u.buflen = 0) (hbs : bs.length = 128) :
    filledUp bs u = { compress bs (addCount 128 u) with buf := writeRun bs 0 u.buf } := by
  have hempty : u.buflen.toNat = 0 := congrArg BitVec.toNat h0
  have hblk : (writeRun bs 0 u.buf).toList = bs := by
    rw [toList_writeRun bs 0 u.buf (by omega), List.drop_of_length_le (by simp [hbs])]
    simp
  rw [filledUp, hempty, ← h0]
  simp only [hblk]
  rfl

/-- R92: compressing a block straight from the input leaves what filling the empty buffer with it leaves. -/
theorem padBuf_compress_eq_filledUp {bs : List Byte} {u : B2bUnit} (h0 : u.buflen = 0) (hbs : bs.length = 128) :
    padBuf (compress bs (addCount 128 u)) = padBuf (filledUp bs u) := by
  rw [filledUp_of_empty h0 hbs]
  refine padBuf_withBuf_congr (compress bs (addCount 128 u)) (b := u.buf) fun i _ hlt => absurd hlt ?_
  rw [compress_buflen, addCount_buflen, h0]
  exact Nat.not_lt_zero i

/-- R92: the loop over whole blocks and the bytes left over. -/
theorem padBuf_absorbWhole (n : Nat) {s : List Byte} {u : B2bUnit} (h0 : u.buflen = 0)
    (hs : s.length ≤ 128 * (n + 1)) :
    padBuf (appendToBuf (absorbWhole n s u).1 (absorbWhole n s u).2) = padBuf (absorb s u) := by
  have hempty : u.buflen.toNat = 0 := congrArg BitVec.toNat h0
  induction n generalizing s u with
  | zero => rw [absorb_eq_appendToBuf s u (by omega), absorbWhole]
  | succ n ih =>
    rw [absorbWhole]
    split
    next hlong =>
      have htake : (s.take 128).length = 128 := List.length_take_of_le (by omega)
      have hdrop : (s.drop 128).length = s.length - 128 := List.length_drop
      calc padBuf (appendToBuf _ _)
          = padBuf (absorb (s.drop 128) (compress (s.take 128) (addCount 128 u))) := ih h0 (by omega) hempty
        _ = padBuf (absorb (s.drop 128) (filledUp (s.take 128) u)) :=
            padBuf_absorb_congr _ (padBuf_compress_eq_filledUp h0 htake) (Nat.zero_le 128)
        _ = padBuf (absorb s u) := by
            rw [← absorb_append_of_fills (by omega) (by omega), List.take_append_drop]
    next hshort => rw [absorb_eq_appendToBuf s u (by omega)]

/-- R92: the two forms end in units with the same normal form. -/
theorem padBuf_absorbBlockForm (s : List Byte) {u : B2bUnit} (hu : u.buflen.toNat ≤ 128) :
    padBuf (absorbBlockForm s u) = padBuf (absorb s u) := by
  unfold absorbBlockForm
  dsimp only
  split
  next hnil => rw [List.length_eq_zero_iff.1 hnil, absorb_nil]
  next =>
    split
    next hlong =>
      have htake : (s.take (128 - u.buflen.toNat)).length = 128 - u.buflen.toNat := List.length_take_of_le hlong.le
      have hdrop : (s.drop (128 - u.buflen.toNat)).length = s.length - (128 - u.buflen.toNat) := List.length_drop
      calc padBuf (appendToBuf _ _)
          = padBuf (absorb (s.drop (128 - u.buflen.toNat)) (filledUp (s.take (128 - u.buflen.toNat)) u)) :=
            padBuf_absorbWhole _ rfl (by omega)
        _ = padBuf (absorb s u) := by
            rw [← absorb_append_of_fills (by omega) (by omega), List.take_append_drop]
    next hshort => rw [absorb_eq_appendToBuf s u (by omega)]

/-- Settles O23: what a rule reads is a function of the normal form. -/
theorem blockFormOfAbsorbAgrees : Obligations.BlockFormOfAbsorbAgrees := by
  intro u msg hu a b
  have hpad : padBuf b = padBuf a := padBuf_absorbBlockForm msg hu
  obtain ⟨hb, hbytes⟩ := padBuf_eq_iff.1 hpad
  refine ⟨?_, ?_, ?_, ?_, ?_, ?_, ?_, ?_, fun i => hbytes i.val i.isLt, digest_congr hpad⟩ <;> rw [hb]

/-! ## `B2B_FINAL` -/

/-- R42: the chaining value's bytes, word by word. -/
theorem chainBytes_eq (h : Vector Word 8) : chainBytes h =
    le64 h[0] ++ le64 h[1] ++ le64 h[2] ++ le64 h[3] ++ le64 h[4] ++ le64 h[5] ++ le64 h[6] ++ le64 h[7] := by
  have hlist : h.toList = [h[0], h[1], h[2], h[3], h[4], h[5], h[6], h[7]] :=
    List.ext_getElem h.length_toList fun i _ hi => by
      replace hi : i < 8 := hi
      interval_cases i <;> rfl
  rw [chainBytes, hlist]
  simp only [List.flatMap_cons, List.flatMap_nil, List.append_nil, List.append_assoc]

theorem digest_eq_finalBytes (u : B2bUnit) : digest u = finalBytes u := by
  rw [digest, chainBytes_eq]
  rfl

theorem outHolds_delivered {s : State} (hw : Memory.wf 0 s.outb) (hn : s.b2b.outlen.toNat ≤ 64) :
    OutHolds s.b2b.outlen.toNat (digest s.b2b) s
      (reported 0 (clearUnit (writeResult s.b2b.outlen.toNat (digest s.b2b) s))) :=
  ⟨rfl, readOut_writeResult _ _ s hw (digest_length s.b2b hn)⟩

/-- Settles O24: the invariant keeps OUT in canonical form and the digest length in range. -/
theorem finalDeliversTheDigestAndClearsTheUnit : Obligations.FinalDeliversTheDigestAndClearsTheUnit := by
  intro s hinv
  refine ⟨exec_b2bFinal_idle, fun ha => ⟨_, exec_b2bFinal_delivers ha, ?_, unitIsZero_cleared, rfl⟩⟩
  rw [← digest_eq_finalBytes]
  exact outHolds_delivered hinv.outWf (hinv.unitBusy ha).outlenMax

/-- Settles O25: absorbing a concatenation is absorbing its parts in order. -/
theorem initUpdateFinalComputeBlake2b : Obligations.InitUpdateFinalComputeBlake2b := by
  intro n msg s h1 h2 hw
  refine ⟨blake2b_length n msg h2, ⟨_, exec_b2bInit_starts h1 h2 s, rfl⟩, fun hu => ?_⟩
  have ha : s.b2b.active = true := by rw [hu]; exact absorb_active _ _
  have hn : s.b2b.outlen.toNat = n := by rw [hu, absorb_outlen, initUnit_outlen n h2]
  refine ⟨fun hr => ⟨_, exec_b2bUpdate_absorbs ha hr, ?_⟩, _, exec_b2bFinal_delivers ha, ?_⟩
  · rw [absorb_concat, ← hu]; rfl
  · have hout := outHolds_delivered hw (hn.trans_le h2)
    have hdigest : digest s.b2b = blake2b n msg := by rw [hu, blake2b]
    rwa [hn, hdigest] at hout ⊢

/-! ## What the commands of the unit leave unchanged -/

theorem exec_writesUnitOnly {i : Instr} {s t : State} (hi : (∃ n, i = .b2bInit n) ∨ i = .b2bUpdate)
    (h : exec i s = .next t) : ∃ c u, t = finish c { s with b2b := u } := by
  rcases hi with ⟨n, rfl⟩ | rfl
  · rcases exec_b2bInit_cases h with ⟨-, ht⟩ | ⟨-, ht⟩
    · exact ⟨_, s.b2b, ht⟩
    · exact ⟨_, _, ht⟩
  · rcases exec_b2bUpdate_cases h with ⟨-, ht⟩ | ⟨-, -, ht⟩ | ⟨-, -, ht⟩
    · exact ⟨_, s.b2b, ht⟩
    · exact ⟨_, s.b2b, ht⟩
    · exact ⟨_, _, ht⟩

/-- Settles O51: IN, OUT and WM are not among the fields written. -/
theorem initAndUpdateFrame : Obligations.InitAndUpdateFrame := by
  intro i s t hi h
  obtain ⟨c, u, rfl⟩ := exec_writesUnitOnly hi h
  exact ⟨rfl, fun _ => rfl, fun _ => rfl, fun _ => rfl⟩

/-- A command that stores to OUT either reports an error and does nothing else, or delivers one result. -/
theorem exec_writesResult {i : Instr} {s t : State} (hi : i = .b2bFinal ∨ i = .b2bLong) (h : exec i s = .next t) :
    (∃ c, t = finish c s) ∨ ∃ n D, n < 2 ^ 32 ∧ t = finish 0 (clearUnit (writeResult n D s)) := by
  rcases hi with rfl | rfl
  · rcases exec_b2bFinal_cases h with ⟨-, ht⟩ | ⟨-, ht⟩
    · exact .inl ⟨_, ht⟩
    · exact .inr ⟨_, _, s.b2b.outlen.isLt.trans (by decide), ht⟩
  · rcases exec_b2bLong_cases h with ⟨-, ht⟩ | ⟨-, -, ht⟩ | ⟨-, -, -, ht⟩ | ⟨-, -, -, ht⟩
    · exact .inl ⟨_, ht⟩
    · exact .inl ⟨_, ht⟩
    · exact .inl ⟨_, ht⟩
    · exact .inr ⟨_, _, s.reg.outlen.isLt, ht⟩

/-- Settles O52: an error stores nothing; a result stays below its length and `OUT_BYTES`. -/
theorem finalAndLongFrame : Obligations.FinalAndLongFrame := by
  intro i s t hi _ h
  rcases exec_writesResult hi h with ⟨c, rfl⟩ | ⟨n, D, hn, rfl⟩
  · exact ⟨rfl, fun _ => rfl, fun _ => rfl, fun _ _ => rfl, fun _ _ _ => rfl⟩
  · refine ⟨rfl, fun _ => rfl, fun _ => rfl, fun herr => absurd rfl herr, fun a hout hcnt => ?_⟩
    have hcnt' : n ≤ a := (toNat_ofNat_of_lt hn).symm.trans_le hcnt
    exact readOut_writeResult_beyond n D s a hout hcnt'

end Sys2Proof.Machine

/-! PROOFS. The long hash (O26, O27) and `B2B_LONG` (O28). Every length from 65 on is `32 * (m + 1) + last` with
`33 <= last <= 64` in one way; by induction on `m` the tail of R102's loop is `m` half digests of the chain and one whole
digest of length `last`. -/

namespace Sys2Proof.Machine

open Claims

/-! ## The chain of digests -/

theorem chainDigest_succ (pre : List Byte) (j : Nat) : chainDigest pre (j + 1) = blake2b 64 (chainDigest pre j) := rfl

theorem length_chainDigest (pre : List Byte) (j : Nat) : (chainDigest pre j).length = 64 := by
  cases j <;> exact blake2b_length 64 _ le_rfl

/-- The first halves of the digests `a .. a + m - 1` of the chain. -/
def halfDigests (pre : List Byte) (a m : Nat) : List Byte :=
  (List.range' a m).flatMap fun j => (chainDigest pre j).take 32

theorem halfDigests_zero (pre : List Byte) (a : Nat) : halfDigests pre a 0 = [] := rfl

theorem halfDigests_succ (pre : List Byte) (a m : Nat) :
    halfDigests pre a (m + 1) = (chainDigest pre a).take 32 ++ halfDigests pre (a + 1) m := by
  rw [halfDigests, List.range'_succ, List.flatMap_cons, halfDigests]

theorem length_halfDigests (pre : List Byte) (a m : Nat) : (halfDigests pre a m).length = 32 * m := by
  induction m generalizing a with
  | zero => rfl
  | succ m ih => rw [halfDigests_succ, List.length_append, List.length_take, length_chainDigest, ih]; omega

/-! ## The loop -/

/-- R102: with at most 64 bytes left the loop stops, whatever its bound. -/
theorem longTail_of_le {rem : Nat} (h : rem ≤ 64) (fuel : Nat) (v : List Byte) : longTail fuel rem v = blake2b rem v := by
  cases fuel with
  | zero => rfl
  | succ fuel => exact if_neg h.not_gt

theorem longTail_of_gt {rem : Nat} (h : 64 < rem) (fuel : Nat) (v : List Byte) :
    longTail (fuel + 1) rem v = (blake2b 64 v).take 32 ++ longTail fuel (rem - 32) (blake2b 64 v) := if_pos h

/-- R101: one hash in the short case. -/
theorem hlong_of_le {n : Nat} (h : n ≤ 64) (msg : List Byte) : hlong n msg = blake2b n (le32 n ++ msg) := if_pos h

/-- R102: the first digest, then the loop. -/
theorem hlong_of_gt {n : Nat} (h : 64 < n) (msg : List Byte) : hlong n msg =
    (chainDigest (le32 n ++ msg) 0).take 32 ++ longTail (n / 32) (n - 32) (chainDigest (le32 n ++ msg) 0) :=
  if_neg h.not_ge

section
variable {last : Nat} (hlo : 33 ≤ last) (hhi : last ≤ 64)
include hlo hhi

/-- The loop from digest `j` of the chain on: `m` turns, then the last digest. -/
theorem longTail_chainDigest (pre : List Byte) {m fuel : Nat} (hm : m ≤ fuel) (j : Nat) :
    longTail fuel (32 * m + last) (chainDigest pre j) =
      halfDigests pre (j + 1) m ++ blake2b last (chainDigest pre (j + m)) := by
  induction m generalizing fuel j with
  | zero => rw [Nat.mul_zero, Nat.zero_add, longTail_of_le hhi, halfDigests_zero, List.nil_append, Nat.add_zero]
  | succ m ih =>
    obtain ⟨fuel, rfl⟩ : ∃ f, fuel = f + 1 := ⟨fuel - 1, by omega⟩
    have hrem : 32 * (m + 1) + last - 32 = 32 * m + last := by omega
    have htail := ih (Nat.le_of_succ_le_succ hm) (j + 1)
    rw [longTail_of_gt (by omega), hrem, ← chainDigest_succ, htail, halfDigests_succ, List.append_assoc,
      Nat.add_right_comm j 1 m, Nat.add_assoc j m 1]

/-- R102, R103 on a length in the form `32 * (m + 1) + last`. -/
theorem hlong_eq_chain {n m : Nat} (hn : n = 32 * (m + 1) + last) (msg : List Byte) :
    hlong n msg = halfDigests (le32 n ++ msg) 0 (m + 1) ++ blake2b last (chainDigest (le32 n ++ msg) m) := by
  have hrem : n - 32 = 32 * m + last := by omega
  have htail := longTail_chainDigest hlo hhi (le32 n ++ msg) (show m ≤ n / 32 by omega) 0
  rw [Nat.zero_add, Nat.zero_add] at htail
  rw [hlong_of_gt (by omega), hrem, htail, halfDigests_succ, List.append_assoc]

end

/-- R103: the length of the long case determines the number of half digests and the length of the last digest. -/
theorem exists_long_shape {n : Nat} (h : 64 < n) : ∃ m last, 33 ≤ last ∧ last ≤ 64 ∧ n = 32 * (m + 1) + last :=
  ⟨(n - 65) / 32, (n - 65) % 32 + 33, by omega⟩

theorem hlong_length (n : Nat) (msg : List Byte) : (hlong n msg).length = n := by
  rcases Nat.lt_or_ge 64 n with h | h
  · obtain ⟨m, last, hlo, hhi, hn⟩ := exists_long_shape h
    rw [hlong_eq_chain hlo hhi hn, List.length_append, length_halfDigests, blake2b_length _ _ hhi, hn]
  · rw [hlong_of_le h, blake2b_length _ _ h]

/-- Settles O26: the half digests and the last digest add up to the requested length. -/
theorem longHashHasTheRequestedLength : Obligations.LongHashHasTheRequestedLength :=
  fun n msg _ _ => ⟨hlong_length n msg, fun h => hlong_of_le h msg⟩

/-- Settles O27: the loop makes `ceil((n - 64) / 32) - 1` turns. -/
theorem longHashIsAChainOfHalfDigests : Obligations.LongHashIsAChainOfHalfDigests := by
  intro n msg h _ pre k
  obtain ⟨m, last, hlo, hhi, hn⟩ := exists_long_shape h
  have hk : k = m + 1 := by omega
  have hlast : n - 32 * (m + 1) = last := by omega
  rw [hk, hlast, Nat.add_sub_cancel, List.range_eq_range']
  exact ⟨by omega, hlo, hhi, by omega, hlong_eq_chain hlo hhi hn msg⟩

/-! ## `B2B_LONG` -/

theorem badLongLen_eq_true_iff (s : State) :
    badLongLen s = true ↔ s.reg.outlen.toNat = 0 ∨ s.cfg.outBytes < s.reg.outlen.toNat := decide_eq_true_iff

theorem exec_b2bLong_busy {s : State} (ha : s.b2b.active = true) : exec .b2bLong s = .next (reported 17 s) := by
  rw [exec, execB2bLong, if_pos ha, raiseErr, finish_eq_reported, ErrKind.code]

section
variable {s : State} (ha : s.b2b.active = false)
include ha

theorem exec_b2bLong_badLen (hn : s.reg.outlen.toNat = 0 ∨ s.cfg.outBytes < s.reg.outlen.toNat) :
    exec .b2bLong s = .next (reported 18 s) := by
  have hb := (badLongLen_eq_true_iff s).2 hn
  rw [exec, execB2bLong, ha, if_neg Bool.false_ne_true, if_pos hb, raiseErr, finish_eq_reported, ErrKind.code]

variable (h1 : 1 ≤ s.reg.outlen.toNat) (h2 : s.reg.outlen.toNat ≤ s.cfg.outBytes)
include h1 h2

theorem exec_b2bLong_pastEnd (hr : ¬ SrcInRange s) : exec .b2bLong s = .next (reported 19 s) := by
  have hb : ¬ badLongLen s = true := by rw [badLongLen_eq_true_iff]; omega
  have hp := (srcPastEnd_eq_true_iff s).2 hr
  rw [exec, execB2bLong, ha, if_neg Bool.false_ne_true, if_neg hb, if_pos hp, raiseErr, finish_eq_reported, ErrKind.code]

theorem exec_b2bLong_delivers (hr : SrcInRange s) : exec .b2bLong s = .next (reported 0
    (clearUnit (writeResult s.reg.outlen.toNat (hlong s.reg.outlen.toNat (sourceBytes s)) s))) := by
  have hb : ¬ badLongLen s = true := by rw [badLongLen_eq_true_iff]; omega
  have hp : ¬ srcPastEnd s = true := fun h => (srcPastEnd_eq_true_iff s).1 h hr
  rw [exec, execB2bLong, ha, if_neg Bool.false_ne_true, if_neg hb, if_neg hp, complete, srcBytes_eq_sourceBytes,
    finish_eq_reported]

end

/-- Settles O28: the long hash has the announced length, so OUT holds all of it and zeros after it. -/
theorem longDeliversTheLongHash : Obligations.LongDeliversTheLongHash := by
  intro s hw
  refine ⟨exec_b2bLong_busy, exec_b2bLong_badLen, exec_b2bLong_pastEnd, fun ha h1 h2 hr => ?_⟩
  have hout := readOut_writeResult _ (hlong s.reg.outlen.toNat (sourceBytes s)) s hw (hlong_length _ _)
  exact ⟨_, exec_b2bLong_delivers ha h1 h2 hr, ⟨rfl, hout⟩, unitIsZero_cleared, rfl⟩

end Sys2Proof.Machine

/-! PROOFS. The set-up of the Argon2id hash: validation and the two failures before the engine runs (O29, O30), the derived
sizes (O31, O32), and what WM and `H0BUF` hold before the fill (O56). The loop over the lanes is described by one invariant,
`SeededUpTo`: the seed digest stands in `H0BUF`, the lanes done hold their first blocks, no other block has changed. -/

namespace Sys2Proof.Machine

open Claims

/-! ## Validation -/

/-- R24: OUT_PRESENT is the one stored bit of CTRL. -/
theorem outPresent_eq_false_iff (s : State) : outPresent s = false ↔ s.reg.ctrl = 0 := by
  have hbit : ∀ c : BitVec 1, c.getLsbD 0 = false ↔ c = 0 := by decide
  exact hbit s.reg.ctrl

/-- The code a list of checks reports, one check at a time. -/
theorem firstFailingCode_cons (failed : Bool) (k : ErrKind) (l : List (Bool × ErrKind)) :
    (((failed, k) :: l).find? Prod.fst).map (fun c => c.2.code) =
      if failed = true then some k.code else (l.find? Prod.fst).map fun c => c.2.code := by
  cases failed <;> rfl

/-- R110: the statement's chain of conditions reports what `validate` finds. -/
theorem firstFailure_eq_validate (s : State) : firstFailure s = (validate s).map ErrKind.code := by
  simp only [validate, Option.map_map, Function.comp_def, checks, firstFailingCode_cons, Bool.not_eq_true',
    outPresent_eq_false_iff, decide_eq_true_eq, gt_iff_lt]
  rfl

theorem validate_eq_none_of_firstFailure {s : State} (h : firstFailure s = none) : validate s = none := by
  rwa [firstFailure_eq_validate, Option.map_eq_none_iff] at h

/-! ## The two failures -/

theorem exec_a2idHash_invalid {s : State} {k : ErrKind} (ha : s.b2b.active = false) (hv : validate s = some k) :
    exec .a2idHash s = .next (reported k.code (zeroize 0 s)) := by
  rw [exec, execA2idHash, ha, if_neg Bool.false_ne_true, hv, ← finish_eq_reported]
  rfl

theorem exec_a2idHash_tooLarge {s : State} (ha : s.b2b.active = false) (hv : validate s = none)
    (ho : overCapacity (derive s) = true) :
    exec .a2idHash s = .next (reported 13 (zeroize 0 (derive s))) := by
  rw [exec, execA2idHash, ha, if_neg Bool.false_ne_true, hv, ← finish_eq_reported]
  exact if_pos ho

/-- R151: nothing secret is left in a zeroized state, whatever it reports. -/
theorem noSecretLeft_zeroize (code : BitVec 5) (n : Nat) (s : State) : (reported code (zeroize n s)).NoSecretLeft n where
  inZero a ha := (readIn_zeroize n s a).trans (if_pos ha)
  unit        := rfl
  regs        := rfl
  wmZero j hj := (readWM_zeroize n s j).trans (if_pos hj)

/-- R110, R111, R151: what a hash that fails before allocation, in the state `s`, leaves in the state `t` it ends in. -/
def FailedClean (code : BitVec 5) (s t : State) : Prop :=
  t.NoSecretLeft 0 ∧ (∀ a, s.cfg.inBytes ≤ a → readIn t a = readIn s a) ∧
    (∀ j, t.eng.readWM j = s.eng.readWM j) ∧ t = reported code { s with b2b := t.b2b, eng := t.eng, inb := t.inb }

theorem failedClean_zeroize (code : BitVec 5) (s : State) : FailedClean code s (reported code (zeroize 0 s)) := by
  refine ⟨noSecretLeft_zeroize code 0 s, fun a ha => ?_, fun j => ?_, rfl⟩
  · exact (readIn_zeroize 0 s a).trans (if_neg (Nat.not_lt.2 ha))
  · exact (readWM_zeroize 0 s j).trans (if_neg (Nat.not_lt_zero j))

/-- Settles O29: `validate` finds the check, and the command zeroizes and reports it. -/
theorem hashReportsTheFirstFailingCheck : Obligations.HashReportsTheFirstFailingCheck := by
  intro s code ha hf
  rw [firstFailure_eq_validate] at hf
  obtain ⟨k, hv, rfl⟩ := Option.map_eq_some_iff.1 hf
  exact ⟨_, exec_a2idHash_invalid ha hv, failedClean_zeroize k.code s⟩

/-! ## Derivation -/

/-- R112: the model's derivation is the statement's. -/
theorem derive_eq_withSizes (s : State) : derive s = withSizes s := rfl

/-- R110: the two checks on which the sizes rest. -/
theorem lanes_and_memory_of_valid {s : State} (h : validate s = none) :
    1 ≤ s.reg.lanes.toNat ∧ 8 * s.reg.lanes.toNat ≤ s.reg.mCost.toNat := by
  obtain ⟨-, -, -, -, -, -, -, -, hm, -, hp, -⟩ := (validate_eq_none_iff s).1 h
  exact ⟨hp, hm⟩

theorem memoryBlocks_eq_sub_mod {m p : Nat} (h : 8 * p ≤ m) : memoryBlocks m p = m - m % (4 * p) := by
  rw [memoryBlocks, segmentLength, Nat.mul_assoc _ 4 p, max_eq_left (by omega), Nat.div_mul_self_eq_mod_sub_self]

/-- Settles O31: no register wraps, and dividing by `4p` and multiplying again drops the remainder. -/
theorem deriveRoundsMemoryDown : Obligations.DeriveRoundsMemoryDown := by
  intro s hp hm
  refine ⟨?_, derive_memblks s hm, derive_seglen s hp hm, derive_lanelen s hp hm, derive_eq_withSizes s⟩
  rw [derive_memblks s hm, memoryBlocks_eq_sub_mod hm]

/-- Settles O32: the sizes are those of a fill, and the remainder dropped is below `4p`. -/
theorem derivedSizesAreBounded : Obligations.DerivedSizesAreBounded := by
  intro s hv p m r
  obtain ⟨hp, hm⟩ := lanes_and_memory_of_valid hv
  have ok := shapeOf_derive_ok s hp hm
  have hseg : 2 ≤ r.seglen.toNat := ok.seg
  have hlane : r.lanelen.toNat = 4 * r.seglen.toNat := ok.lane
  have hblocks : r.memblks.toNat = p * r.lanelen.toNat := ok.blocks
  have hround : r.memblks.toNat = m - m % (4 * p) := (derive_memblks s hm).trans (memoryBlocks_eq_sub_mod hm)
  have hrest : m % (4 * p) < 4 * p := Nat.mod_lt m (by omega)
  have hmin : p * 8 ≤ p * r.lanelen.toNat := Nat.mul_le_mul_left p (by omega)
  exact ⟨hp, hseg, by omega, by omega, by omega, by omega, hblocks⟩

/-- Settles O30: MEMBLKS holds the size the rule derives, so it is larger than CAP_BLOCKS; the state that is zeroized is the
statement's by `derive_eq_withSizes`. -/
theorem hashReportsMissingMemory : Obligations.HashReportsMissingMemory := by
  intro s ha hf hcap
  have hv := validate_eq_none_of_firstFailure hf
  obtain ⟨-, hm⟩ := lanes_and_memory_of_valid hv
  have ho : overCapacity (derive s) = true := decide_eq_true (hcap.trans_eq (derive_memblks s hm).symm)
  exact ⟨_, exec_a2idHash_tooLarge ha hv ho, derive_eq_withSizes s ▸ failedClean_zeroize 13 (derive s)⟩

/-! ## The seed digest -/

theorem length_seedInput (s : State) : (seedInput s).length = 40 + s.reg.pwdlen.toNat + s.reg.saltlen.toNat := by
  simp only [seedInput, inWindow, List.length_append, le32_length, List.length_map, List.length_range]
  omega

theorem length_seedDigest (s : State) : (blake2b 64 (seedInput s)).length = 64 := blake2b_length 64 _ le_rfl

/-- R114: after `derive` the message of the seed digest is the statement's, whichever memory figure enters it. -/
theorem seedMessage_derive {s : State} (hm : 8 * s.reg.lanes.toNat ≤ s.reg.mCost.toNat) :
    seedMessage (derive s) = seedInput s := by
  have hblocks : (derive s).reg.memblks.toNat = blocksOf s := derive_memblks s hm
  cases hsrc : s.cfg.h0MemSource <;>
    simp only [seedMessage, seedInput, seedMemory, derive_cfg, hsrc, hblocks, password, salt, window_eq_map, inWindow] <;>
    rfl

/-! ## `H0BUF`

`H0BUF[0 .. 63]` holds the seed digest through the loop; a lane's two blocks are made from it with the counter and the lane
in the eight bytes behind it. -/

section
variable {h : List Byte} {v : Vector Byte 72}

theorem toList_writeRun_counter (hv : v.toList.take 64 = h) (c : Nat) :
    (writeRun (le32 c) 64 v).toList = h ++ le32 c ++ v.toList.drop 68 := by
  rw [toList_writeRun _ _ _ (by simp), le32_length, hv]

theorem toList_writeRun_lane (l : Nat) : (writeRun (le32 l) 68 v).toList = v.toList.take 68 ++ le32 l := by
  rw [toList_writeRun _ _ _ (by simp), le32_length, List.drop_of_length_le (by rw [Vector.length_toList]),
    List.append_nil]

end

/-- R115: the buffer of lane `l` with the counter `c`, behind the seed digest `h`. -/
def laneInput (h : List Byte) (c l : Nat) : List Byte := h ++ le32 c ++ le32 l

section
variable {h : List Byte} (hh : h.length = 64)
include hh

theorem take_laneInput (c l : Nat) : (laneInput h c l).take 64 = h := by
  rw [laneInput, List.append_assoc, List.take_left' hh]

theorem drop_laneInput (c l : Nat) : (laneInput h c l).drop 68 = le32 l :=
  List.drop_left' (by rw [List.length_append, hh, le32_length])

/-- R115: changing the counter keeps the rest of the buffer. -/
theorem toList_writeRun_laneInput {v : Vector Byte 72} {c l : Nat} (hv : v.toList = laneInput h c l) (c' : Nat) :
    (writeRun (le32 c') 64 v).toList = laneInput h c' l := by
  rw [toList_writeRun_counter (by rw [hv, take_laneInput hh]), hv, drop_laneInput hh, laneInput]

/-- R115: the buffer before the blocks of a lane, whatever the lane before has left behind the seed digest. -/
theorem toList_startLane {v : Vector Byte 72} (hv : v.toList.take 64 = h) (l : Nat) :
    (writeRun (le32 l) 68 (writeRun (le32 0) 64 v)).toList = laneInput h 0 l := by
  rw [toList_writeRun_lane, toList_writeRun_counter hv, laneInput,
    List.take_left' (by rw [List.length_append, hh, le32_length])]

/-- R115: what the first blocks of a lane leave in `H0BUF`. -/
theorem toList_firstBlocks_h0buf {sh : Shape} {e : Engine} (he : e.h0buf.toList.take 64 = h) (l : Nat) :
    (firstBlocks sh l e).h0buf.toList = laneInput h 1 l := by
  simp only [firstBlocks, firstBlock_h0buf]
  exact toList_writeRun_laneInput hh (toList_writeRun_laneInput hh (toList_startLane hh he l) 0) 1

/-- R115: the two blocks of WM that the first blocks of a lane write, and their contents. -/
theorem firstBlocks_wm_eq {sh : Shape} {e : Engine} (he : e.h0buf.toList.take 64 = h) (l : Nat) :
    (firstBlocks sh l e).wm =
      Memory.write Block.zero
        (Memory.write Block.zero e.wm (l * sh.laneLen) (Block.words (hlong 1024 (laneInput h 0 l))))
        (l * sh.laneLen + 1) (Block.words (hlong 1024 (laneInput h 1 l))) := by
  have h0 := toList_writeRun_laneInput hh (toList_startLane hh he l) 0
  simp only [firstBlocks, firstBlock_wm, firstBlock_h0buf, h0, toList_writeRun_laneInput hh h0 1, Nat.add_zero]

end

/-! ## The loop over the lanes -/

/-- R114, R115: `n` lanes are done, from the engine `e₀` on. -/
structure SeededUpTo (s : State) (sh : Shape) (e₀ : Engine) (n : Nat) (e : Engine) : Prop where
  digest : e.h0buf.toList.take 64 = blake2b 64 (seedInput s)
  wf     : Memory.wf Block.zero e.wm
  done   : ∀ l, l < n → e.readWM (l * sh.laneLen) = seedBlock s l 0 ∧ e.readWM (l * sh.laneLen + 1) = seedBlock s l 1
  others : ∀ j, (∀ l, l < n → j ≠ l * sh.laneLen ∧ j ≠ l * sh.laneLen + 1) → e.readWM j = e₀.readWM j

section
variable {s : State} {sh : Shape} {e₀ e : Engine} {n : Nat}

/-- R115: every block of WM after the first blocks of lane `n`. -/
theorem SeededUpTo.readWM_firstBlocks (hs : SeededUpTo s sh e₀ n e) (j : Nat) :
    (firstBlocks sh n e).readWM j =
      if j = n * sh.laneLen + 1 then seedBlock s n 1 else if j = n * sh.laneLen then seedBlock s n 0 else e.readWM j := by
  rw [Engine.readWM, firstBlocks_wm_eq (length_seedDigest s) hs.digest,
    Memory.read_write _ _ _ _ _ (Memory.wf_write _ _ _ _ hs.wf), Memory.read_write _ _ _ _ _ hs.wf]
  rfl

/-- R115: one turn; the lanes are at least two blocks long, so it writes no block of a lane before it. -/
theorem SeededUpTo.succ (hll : 2 ≤ sh.laneLen) (hs : SeededUpTo s sh e₀ n e) :
    SeededUpTo s sh e₀ (n + 1) (firstBlocks sh n e) where
  digest := by
    have hh := length_seedDigest s
    rw [toList_firstBlocks_h0buf hh hs.digest, take_laneInput hh]
  wf := by
    rw [firstBlocks_wm_eq (length_seedDigest s) hs.digest]
    exact Memory.wf_write _ _ _ _ (Memory.wf_write _ _ _ _ hs.wf)
  done l hl := by
    rw [hs.readWM_firstBlocks, hs.readWM_firstBlocks]
    rcases Nat.lt_succ_iff_lt_or_eq.1 hl with hlt | rfl
    · have hend : (l + 1) * sh.laneLen ≤ n * sh.laneLen := Nat.mul_le_mul_right _ hlt
      rw [Nat.add_mul, Nat.one_mul] at hend
      rw [if_neg (by omega), if_neg (by omega), if_neg (by omega), if_neg (by omega)]
      exact hs.done l hlt
    · rw [if_neg (by omega), if_pos rfl, if_pos rfl]
      exact ⟨rfl, rfl⟩
  others j hj := by
    obtain ⟨h0, h1⟩ := hj n n.lt_succ_self
    rw [hs.readWM_firstBlocks, if_neg h1, if_neg h0]
    exact hs.others j fun l hl => hj l (hl.trans n.lt_succ_self)

/-- R114: the engine before the loop, seeded with the message of the statement. -/
theorem seededUpTo_zero {d : State} (hd : seedMessage d = seedInput s) (hwf : Memory.wf Block.zero e₀.wm) :
    SeededUpTo s sh e₀ 0 (seed d e₀) where
  digest := by
    have hh := length_seedDigest s
    rw [seed_h0buf, hd, toList_writeRun _ _ _ (by omega), List.take_zero, List.nil_append, List.take_left' hh]
  wf     := by rwa [seed_wm]
  done   := nofun
  others := fun _ _ => readWM_congr (seed_wm d e₀) _

theorem seededUpTo_lanes {d : State} (hd : seedMessage d = seedInput s) (hwf : Memory.wf Block.zero e₀.wm)
    (hll : 2 ≤ sh.laneLen) : SeededUpTo s sh e₀ sh.lanes (forUp (firstBlocks sh) sh.lanes 0 (seed d e₀)) := by
  have hloop := forUp_advances (SeededUpTo s sh e₀) (firstBlocks sh) sh.lanes 0 (seed d e₀)
    (fun _ _ _ _ hs => hs.succ hll) (seededUpTo_zero hd hwf)
  rwa [Nat.zero_add] at hloop

end

/-- R114, R115: seeding writes WM and `H0BUF` and nothing else. -/
theorem seedLanes_frame (s : State) (sh : Shape) (e : Engine) :
    ∃ w v, seedLanes s sh e = { e with wm := w, h0buf := v } := by
  obtain ⟨w, v, hloop⟩ := forUp_keeps (fun e' => ∃ w v, e' = { e with wm := w, h0buf := v }) (firstBlocks sh) sh.lanes 0
    (seed s e) (fun l _ _ _ ⟨_, _, he⟩ => he ▸ firstBlocks_frame sh l _) ⟨_, _, rfl⟩
  exact ⟨w, _, by rw [seedLanes, hloop]⟩

theorem two_le_laneLen {sh : Shape} (ok : ShapeOk sh) : 2 ≤ sh.laneLen := by
  have hseg := ok.seg
  have hlane := ok.lane
  omega

/-- R113: what WM holds after allocation. -/
theorem readWM_allocate (n : Nat) (e : Engine) (j : Nat) :
    (allocate n e).readWM j = if j < n then Block.zero else e.readWM j := by
  rw [Engine.readWM, allocate_wm, Memory.read_zeroRange, Engine.readWM]
  simp only [Nat.zero_le, true_and]

/-- Settles O56: the invariant of the loop after the last lane, from the allocated region on. -/
theorem seedLanesFillTheFirstBlocks : Obligations.SeedLanesFillTheFirstBlocks := by
  intro s e hv hwf d ll e'
  obtain ⟨hp, hm⟩ := lanes_and_memory_of_valid hv
  have hll := two_le_laneLen (shapeOf_derive_ok s hp hm)
  have hwf₀ : Memory.wf Block.zero (allocate d.reg.memblks.toNat e).wm := Memory.wf_zeroRange _ _ _ _ hwf
  have hs := seededUpTo_lanes (seedMessage_derive hm) hwf₀ hll
  have hwm := seedLanes_wm d (shapeOf d) (allocate d.reg.memblks.toNat e)
  refine ⟨fun l hl => ?_, fun j hj => ?_, fun i => ?_, length_seedInput s, ?_, ?_⟩
  · rw [readWM_congr hwm, readWM_congr hwm]
    exact hs.done l hl
  · rw [readWM_congr hwm, hs.others j hj, readWM_allocate]
  · rw [seedLanes_h0buf]
    exact Vector.getElem_replicate i.isLt
  · rw [hwm]
    exact hs.wf
  · obtain ⟨w, v, hframe⟩ := seedLanes_frame d (shapeOf d) (allocate d.reg.memblks.toNat e)
    rw [show e' = _ from hframe]
    rfl

end Sys2Proof.Machine

/-! PROOFS. The block-mixing engine (O33 to O38) and what stands before a segment's loop (O57). `P` is a bijection because
each half of `GB` can be undone word by word, last word first; the two mixing passes differ only in the place they give a
word, and one lemma serves both (`ofFn_pass`). -/

namespace Sys2Proof.Machine

open Claims

/-! ## `fBlaMka` and rotations -/

theorem low32_toNat (x : Word) : (low32 x).toNat = x.toNat % 2 ^ 32 := by
  rw [low32, setWidth_64_toNat, BitVec.toNat_setWidth]

/-- Settles O33: the sum and the two products of words are those of numbers modulo `2 ^ 64`. -/
theorem fBlaMkaIsMultiplyAdd : Obligations.FBlaMkaIsMultiplyAdd := by
  intro x y
  have two : (2 : Word).toNat = 2 := rfl
  simp only [fBlaMka, BitVec.toNat_add, BitVec.toNat_mul, low32_toNat, two, Nat.mul_mod_mod, Nat.add_mod_mod,
    Nat.mod_add_mod, Nat.mul_assoc]

/-- R125: in the low half, `fBlaMka` multiplies its first operand by an odd number. -/
theorem fBlaMka_modEq (x y : Word) :
    (fBlaMka x y).toNat ≡ x.toNat * (1 + 2 * (y.toNat % 2 ^ 32)) + y.toNat [MOD 2 ^ 32] := by
  rw [fBlaMkaIsMultiplyAdd x y]
  generalize y.toNat % 2 ^ 32 = c
  calc (x.toNat + y.toNat + 2 * (x.toNat % 2 ^ 32) * c) % 2 ^ 64
      ≡ x.toNat + y.toNat + 2 * (x.toNat % 2 ^ 32) * c [MOD 2 ^ 32] :=
        (Nat.mod_modEq _ _).of_dvd (pow_dvd_pow 2 (by decide))
    _ ≡ x.toNat + y.toNat + 2 * x.toNat * c [MOD 2 ^ 32] :=
        (((Nat.mod_modEq _ _).mul_left 2).mul_right c).add_left _
    _ = x.toNat * (1 + 2 * c) + y.toNat := by ring

/-- The odd factor can be cancelled: equal results have operands with equal low halves, hence equal products. -/
theorem fBlaMka_left_injective (y : Word) : Function.Injective (fBlaMka · y) := by
  intro x x' h
  have hodd : Nat.Coprime (2 ^ 32) (1 + 2 * (y.toNat % 2 ^ 32)) := by
    refine Nat.Coprime.pow_left 32 (Nat.coprime_two_left.2 ?_)
    exact odd_one.add_even (even_two_mul _)
  have hmod : x.toNat ≡ x'.toNat [MOD 2 ^ 32] := by
    refine Nat.ModEq.cancel_right_of_coprime hodd (Nat.ModEq.add_right_cancel' y.toNat ?_)
    exact (fBlaMka_modEq x y).symm.trans ((congrArg BitVec.toNat h) ▸ fBlaMka_modEq x' y)
  have hlow : low32 x = low32 x' := BitVec.eq_of_toNat_eq (by rw [low32_toNat, low32_toNat, hmod])
  simpa only [fBlaMka, hlow, BitVec.add_left_inj] using h

/-- R7: the bits of a word rotated to the right. -/
theorem getElem_rotr64 (w : Word) {n : Nat} (h : n < 64) (i : Nat) (hi : i < 64) :
    (rotr64 w n)[i] = if hin : i < 64 - n then w[n + i] else w[i - (64 - n)] := by
  have hrot : rotr64 w n = w.rotateRight n := by rw [BitVec.rotateRight_def, Nat.mod_eq_of_lt h, rotr64]
  simp only [hrot, BitVec.getElem_rotateRight, Nat.mod_eq_of_lt h]

/-- R7: rotating on to the full width gives the word back. -/
theorem rotr64_rotr64 {n : Nat} (h0 : 0 < n) (h : n < 64) (w : Word) : rotr64 (rotr64 w n) (64 - n) = w := by
  ext i hi
  rw [getElem_rotr64 _ (by omega) i hi]
  split
  · rw [getElem_rotr64 _ h, dif_neg (by omega)]
    congr 1; omega
  · rw [getElem_rotr64 _ h, dif_pos (by omega)]
    congr 1; omega

theorem rotr64_injective {n : Nat} (h0 : 0 < n) (h : n < 64) : Function.Injective (rotr64 · n) :=
  Function.LeftInverse.injective (g := (rotr64 · (64 - n))) (rotr64_rotr64 h0 h)

/-! ## `P` is a bijection -/

/-- R126: half of `GB`: both halves have the same steps, with other rotations. -/
def halfGB (n m : Nat) (q : Quad) : Quad :=
  let a := fBlaMka q.a q.b
  let d := rotr64 (q.d ^^^ a) n
  let c := fBlaMka q.c d
  ⟨a, rotr64 (q.b ^^^ c) m, c, d⟩

theorem mixGB_eq_halves : mixGB = halfGB 16 63 ∘ halfGB 32 24 := rfl

/-- The steps undone from the last to the first: `b`, `c`, `d`, `a`. -/
theorem halfGB_injective {n m : Nat} (hn : 0 < n ∧ n < 64) (hm : 0 < m ∧ m < 64) : Function.Injective (halfGB n m) := by
  rintro ⟨a, b, c, d⟩ ⟨a', b', c', d'⟩ h
  simp only [halfGB, Quad.mk.injEq] at h ⊢
  obtain ⟨ha, hb, hc, hd⟩ := h
  have eb : b = b' := (BitVec.xor_left_inj _).1 (hc ▸ rotr64_injective hm.1 hm.2 hb)
  have ec : c = c' := fBlaMka_left_injective _ (hd ▸ hc)
  have ed : d = d' := (BitVec.xor_left_inj _).1 (ha ▸ rotr64_injective hn.1 hn.2 hd)
  exact ⟨fBlaMka_left_injective _ (eb ▸ ha), eb, ec, ed⟩

theorem mixGB_injective : Function.Injective mixGB := by
  rw [mixGB_eq_halves]
  exact (halfGB_injective (by decide) (by decide)).comp (halfGB_injective (by decide) (by decide))

theorem Quad.ext {q q' : Quad} (ha : q.a = q'.a) (hb : q.b = q'.b) (hc : q.c = q'.c) (hd : q.d = q'.d) : q = q' :=
  Quad.mk.injEq .. ▸ ⟨ha, hb, hc, hd⟩

/-- What stands at a place after an application of `g`. -/
theorem onPlaces_apply (g : Quad → Quad) {a b c d : Fin 16} (h : [a, b, c, d].Nodup) (v : Fin 16 → Word) (k : Fin 16) :
    onPlaces g a b c d v k =
      if k = a then (g ⟨v a, v b, v c, v d⟩).a else if k = b then (g ⟨v a, v b, v c, v d⟩).b
      else if k = c then (g ⟨v a, v b, v c, v d⟩).c else if k = d then (g ⟨v a, v b, v c, v d⟩).d else v k := by
  simp only [onPlaces, Function.update_apply]
  grind

/-- At four different places an application of `g` can be undone when `g` can: the results at the places determine the
four words, and every other word is unchanged. -/
theorem onPlaces_injective {g : Quad → Quad} (hg : Function.Injective g) {a b c d : Fin 16} (h : [a, b, c, d].Nodup) :
    Function.Injective (onPlaces g a b c d) := by
  intro v w hvw
  have hk (k : Fin 16) : onPlaces g a b c d v k = onPlaces g a b c d w k := congrFun hvw k
  simp only [onPlaces_apply g h] at hk
  have hq : g ⟨v a, v b, v c, v d⟩ = g ⟨w a, w b, w c, w d⟩ := by
    apply Quad.ext <;> grind
  obtain ⟨ha, hb, hc, hd⟩ := Quad.mk.injEq .. ▸ hg hq
  funext k
  grind

/-- The places of each of the eight applications are all different, so each can be undone. -/
theorem eightTimes_injective {g : Fin 8 → Fin 16 → Fin 16 → Fin 16 → Fin 16 → (Fin 16 → Word) → Fin 16 → Word}
    (h : ∀ i {a b c d}, [a, b, c, d].Nodup → Function.Injective (g i a b c d)) : Function.Injective (eightTimes g) := by
  intro v w hvw
  simpa (disch := decide) only [eightTimes, (h _ _).eq_iff] using hvw

theorem Vec16.ofFn_get (v : Vec16) : Vec16.ofFn v.get = v := rfl

theorem Vec16.get_injective : Function.Injective Vec16.get := Function.LeftInverse.injective Vec16.ofFn_get

theorem permP_injective : Function.Injective permP := by
  intro v w h
  have hget := congrArg Vec16.get h
  simp only [permP, columnsThenDiagonals_get] at hget
  exact Vec16.get_injective (eightTimes_injective (fun _ => onPlaces_injective mixGB_injective) hget)

/-- Settles O34: an injective function of a finite type to itself is a bijection. -/
theorem permutationIsABijection : Obligations.PermutationIsABijection := by
  have : Finite Vec16 := Finite.of_injective Vec16.get Vec16.get_injective
  exact Finite.injective_iff_bijective.1 permP_injective

/-! ## The mixing passes -/

/-- R128: the group of a word in the first pass and its place there. -/
def rowPlace (w : Fin 128) : Fin 8 × Fin 16 := (⟨w.val / 16, by omega⟩, ⟨w.val % 16, by omega⟩)

/-- R129: the same for the second pass. -/
def columnPlace (w : Fin 128) : Fin 8 × Fin 16 :=
  (⟨w.val % 16 / 2, by omega⟩, ⟨2 * (w.val / 16) + w.val % 2, by omega⟩)

theorem rowIndex_eq_iff (w : Fin 128) (p : Fin 8 × Fin 16) : rowIndex p.1 p.2 = w ↔ p = rowPlace w := by
  simp only [rowIndex, rowPlace, Fin.ext_iff, Prod.ext_iff]
  omega

theorem columnIndex_eq_iff (w : Fin 128) (p : Fin 8 × Fin 16) : columnIndex p.1 p.2 = w ↔ p = columnPlace w := by
  simp only [columnIndex, columnPlace, Fin.ext_iff, Prod.ext_iff]
  omega

theorem firstPass_getElem (r : Block) (w : Fin 128) : (firstPass r)[w] =
    (permP (Vec16.ofFn fun k => r[rowIndex (rowPlace w).1 k])).get (rowPlace w).2 := by
  simp [firstPass, permuteGroups, rowPlace]

theorem secondPass_getElem (r : Block) (w : Fin 128) : (secondPass r)[w] =
    (permP (Vec16.ofFn fun k => r[columnIndex (columnPlace w).1 k])).get (columnPlace w).2 := by
  simp [secondPass, permuteGroups, columnPlace]

/-- R128, R129: a pass that gives every word its place in `P` of its group leaves `P` of each group in the group. -/
theorem ofFn_pass {pass : Block → Block} {index : Fin 8 → Fin 16 → Fin 128} {place : Fin 128 → Fin 8 × Fin 16}
    (hpass : ∀ r w, (pass r)[w] = (permP (Vec16.ofFn fun k => r[index (place w).1 k])).get (place w).2)
    (hplace : ∀ w p, index p.1 p.2 = w ↔ p = place w) (r : Block) (i : Fin 8) :
    (Vec16.ofFn fun k => (pass r)[index i k]) = permP (Vec16.ofFn fun k => r[index i k]) := by
  have hp (k : Fin 16) : place (index i k) = (i, k) := ((hplace _ (i, k)).1 rfl).symm
  simp only [hpass, hp]
  exact Vec16.ofFn_get _

theorem existsUnique_place {index : Fin 8 → Fin 16 → Fin 128} {place : Fin 128 → Fin 8 × Fin 16}
    (hplace : ∀ w p, index p.1 p.2 = w ↔ p = place w) (w : Fin 128) : ∃! p : Fin 8 × Fin 16, index p.1 p.2 = w :=
  ⟨place w, (hplace w _).2 rfl, fun p hp => (hplace w p).1 hp⟩

/-- Settles O35: the place of a word is the inverse of the index of a place, in both passes. -/
theorem passesPermuteTheirGroups : Obligations.PassesPermuteTheirGroups := by
  refine ⟨fun r i => ⟨ofFn_pass firstPass_getElem rowIndex_eq_iff r i,
      ofFn_pass secondPass_getElem columnIndex_eq_iff r i⟩,
    fun i j e => ?_, fun i k => rfl,
    fun w => ⟨existsUnique_place rowIndex_eq_iff w, existsUnique_place columnIndex_eq_iff w⟩⟩
  simp only [columnIndex]
  omega

/-! ## One block -/

theorem fillBlock_blockR (prev ref cur : Nat) (withXor : Bool) (e : Engine) :
    (fillBlock prev ref cur withXor e).blockR = mixPasses ((e.readWM ref).xor (e.readWM prev)) := rfl

theorem fillBlock_blockZ (prev ref cur : Nat) (withXor : Bool) (e : Engine) :
    (fillBlock prev ref cur withXor e).blockZ =
      if withXor then ((e.readWM ref).xor (e.readWM prev)).xor (e.readWM cur)
      else (e.readWM ref).xor (e.readWM prev) := by
  cases withXor <;> rfl

theorem fillBlock_frame (prev ref cur : Nat) (withXor : Bool) (e : Engine) :
    ∃ r z w, fillBlock prev ref cur withXor e = { e with blockR := r, blockZ := z, wm := w } := ⟨_, _, _, rfl⟩

theorem readWM_fillBlock_other (prev ref : Nat) {cur j : Nat} (withXor : Bool) (e : Engine) (h : j ≠ cur) :
    (fillBlock prev ref cur withXor e).readWM j = e.readWM j := by
  rw [Engine.readWM, fillBlock_wm, Memory.read_write_other _ _ _ _ _ h, Engine.readWM]

theorem wf_fillBlock (prev ref cur : Nat) (withXor : Bool) (e : Engine) (h : Memory.wf Block.zero e.wm) :
    Memory.wf Block.zero (fillBlock prev ref cur withXor e).wm := by
  rw [fillBlock_wm]
  exact Memory.wf_write _ _ _ _ h

/-- R131: a word of a block that old contents are XORed into when `with_xor` is set. -/
theorem getElem_xorIf (withXor : Bool) (x old : Block) (k : Fin 128) :
    (if withXor then x.xor old else x)[k] = if withXor then x[k] ^^^ old[k] else x[k] := by
  cases withXor
  · rfl
  · exact Block.getElem_xor _ _ k k.isLt

/-- Settles O36: the target's contents, `R` and `Z` word by word, with and without the old contents. -/
theorem fillBlockWritesTheTargetOnly : Obligations.FillBlockWritesTheTargetOnly := by
  intro e prev ref cur withXor hwf e' x
  have hcur : e'.readWM cur = if withXor then (mixed x).xor (e.readWM cur) else mixed x :=
    (readWM_fillBlock_cur _ _ _ _ _ hwf).trans (filled_eq _ _ _ _ _)
  have hz : e'.blockZ = if withXor then x.xor (e.readWM cur) else x := fillBlock_blockZ _ _ _ _ _
  have hmixed (k : Fin 128) : (mixed x)[k] = (mixPasses x)[k] ^^^ x[k] := Block.getElem_xor _ _ k k.isLt
  refine ⟨fun k => ?_, fillBlock_blockR .., fun k => ?_, fun j hj => readWM_fillBlock_other _ _ _ e hj,
    wf_fillBlock _ _ _ _ e hwf, ?_⟩
  · rw [hcur, getElem_xorIf, hmixed]
  · rw [hz, getElem_xorIf]
  · obtain ⟨r, z, w, hframe⟩ := fillBlock_frame prev ref cur withXor e
    rw [show e' = _ from hframe]

/-- R127: `P` keeps the zero vector. -/
theorem permP_zero : permP (Vec16.ofFn fun _ => 0) = Vec16.ofFn fun _ => 0 := by decide

/-- So a pass keeps the zero block. -/
theorem pass_zero {pass : Block → Block} {index : Fin 8 → Fin 16 → Fin 128} {place : Fin 128 → Fin 8 × Fin 16}
    (hpass : ∀ r w, (pass r)[w] = (permP (Vec16.ofFn fun k => r[index (place w).1 k])).get (place w).2) :
    pass Block.zero = Block.zero := by
  have hzero (w : Fin 128) : Block.zero[w] = 0 := Vector.getElem_replicate w.isLt
  have hword (w : Fin 128) : (pass Block.zero)[w] = Block.zero[w] := by
    simp only [hpass, hzero, permP_zero, Vec16.get_ofFn]
  exact Vector.ext fun w hw => hword ⟨w, hw⟩

theorem mixed_zero : mixed Block.zero = Block.zero := by
  rw [mixed, mixPasses, pass_zero firstPass_getElem, pass_zero secondPass_getElem, Block.xor_self]

/-- Settles O37: the XOR of the two blocks is the zero block, which the mixing keeps. -/
theorem fillBlockOfEqualBlocks : Obligations.FillBlockOfEqualBlocks := by
  intro e prev ref cur hwf h
  have hcur (withXor : Bool) : (fillBlock prev ref cur withXor e).readWM cur =
      if withXor then Block.zero.xor (e.readWM cur) else Block.zero := by
    rw [readWM_fillBlock_cur _ _ _ _ _ hwf, filled_eq, h, Block.xor_self, mixed_zero]
  refine ⟨hcur false, (hcur true).trans ?_⟩
  rw [if_pos rfl, Block.xor_comm, Block.xor_zero]

/-! ## Address generation -/

/-- R133: with `ZERO` zero, the block produced is the mixed one. -/
theorem produceBlock_zero_fst (x : Block) (e : Engine) : (produceBlock Block.zero x none e).1 = mixed x := by
  rw [produceBlock_fst, Block.xor_zero, Block.xor_comm, mixed]

theorem nextAddresses_addr {e : Engine} (h : e.zeroB = Block.zero) :
    (nextAddresses e).addr = mixed (mixed (nextAddresses e).inp) := by
  simp only [nextAddresses, produceBlock_zeroB, produceBlock_inp, h, produceBlock_zero_fst]

theorem nextAddresses_frame (e : Engine) :
    ∃ i a r z, nextAddresses e = { e with inp := i, addr := a, blockR := r, blockZ := z } := ⟨_, _, _, _, rfl⟩

/-- Settles O38: each of the two productions mixes what the one before it left, `ZERO` being zero. -/
theorem nextAddressesMixesTheInputTwice : Obligations.NextAddressesMixesTheInputTwice := by
  intro e h e'
  have hinp : e'.inp = e.inp.set 6 (e.inp[6] + 1) := nextAddresses_inp e
  refine ⟨?_, fun k hk => ?_, nextAddresses_addr h, ?_⟩
  · rw [hinp]
    exact Vector.getElem_set_self (by decide)
  · rw [hinp]
    exact Vector.getElem_set_ne (by decide) k.isLt (Ne.symm hk)
  · obtain ⟨i, a, r, z, hframe⟩ := nextAddresses_frame e
    rw [show e' = _ from hframe]

/-! ## The start of a segment -/

/-- R134: the engine with the input block of a segment of pass 0, and `ZERO` zero. -/
def withInput (sh : Shape) (slice lane : Nat) (e : Engine) : Engine :=
  { e with inp := inputBlock 0 lane slice sh.memBlocks sh.passes, zeroB := Block.zero }

section
variable (sh : Shape) (lane : Nat) (e : Engine)

theorem startSegment_eq_self {pass slice : Nat} (h : ¬(pass = 0 ∧ slice < 2)) :
    startSegment sh pass slice lane e = e := by
  have hi : independent pass slice = false := decide_eq_false h
  simp [startSegment, hi]

theorem startSegment_slice0 : startSegment sh 0 0 lane e = nextAddresses (withInput sh 0 lane e) := rfl

theorem startSegment_slice1 : startSegment sh 0 1 lane e = withInput sh 1 lane e := rfl

end

/-- R134: the words of the input block, with `counter` in word 6. -/
theorem getElem_inputBlock_set (pass lane slice memBlocks passes counter : Nat) (k : Fin 128) :
    ((inputBlock pass lane slice memBlocks passes).set 6 (BitVec.ofNat 64 counter))[k] =
      BitVec.ofNat 64 ([pass, lane, slice, memBlocks, passes, 2, counter].getD k.val 0) := by
  obtain ⟨k, hk⟩ := k
  rcases Nat.lt_or_ge k 7 with h7 | h7
  · interval_cases k <;> rfl
  · simp (disch := omega) only [inputBlock, Fin.getElem_fin, Vector.getElem_set_ne, Vector.getElem_replicate]
    rw [List.getD_eq_default _ _ (by simpa using h7)]
    rfl

theorem startSegment_inp (sh : Shape) {slice : Nat} (hs : slice < 2) (lane : Nat) (e : Engine) :
    (startSegment sh 0 slice lane e).inp =
      (inputBlock 0 lane slice sh.memBlocks sh.passes).set 6 (BitVec.ofNat 64 (if slice = 0 then 1 else 0)) := by
  obtain rfl | rfl : slice = 0 ∨ slice = 1 := by omega
  · have h6 : (withInput sh 0 lane e).inp[6] = 0 := Vector.getElem_set_self (by decide)
    rw [startSegment_slice0, nextAddresses_inp, h6]
    rfl
  · exact (Vector.set_set ..).symm

theorem startSegment_zeroB (sh : Shape) {slice : Nat} (hs : slice < 2) (lane : Nat) (e : Engine) :
    (startSegment sh 0 slice lane e).zeroB = Block.zero := by
  obtain rfl | rfl : slice = 0 ∨ slice = 1 := by omega
  · exact nextAddresses_zeroB (withInput sh 0 lane e)
  · rfl

/-- Settles O57: slice 0 is one `next_addresses` on the engine with the input block, slice 1 that engine itself. -/
theorem startSegmentSetsTheInputBlock : Obligations.StartSegmentSetsTheInputBlock := by
  intro sh pass slice lane e e'
  refine ⟨startSegment_eq_self sh lane e, ?_⟩
  rintro rfl hs
  refine ⟨fun k => ?_, fun k => ?_, ?_, ?_⟩
  · rw [show e'.inp = _ from startSegment_inp sh hs lane e, getElem_inputBlock_set]
  · rw [show e'.zeroB = _ from startSegment_zeroB sh hs lane e]
    exact Vector.getElem_replicate k.isLt
  · rintro rfl
    refine ⟨nextAddresses_addr rfl, ?_⟩
    obtain ⟨i, a, r, z, hframe⟩ := nextAddresses_frame (withInput sh 0 lane e)
    rw [show e' = _ from hframe]
    rfl
  · rintro rfl
    rfl

end Sys2Proof.Machine

/-! PROOFS. Reference addressing (O40 to O42). On numbers, a window is `area` positions from `windowStart` on, round the end of
the lane. In the current lane it ends two positions before the current block and is at most `laneLen - 2` long, so it meets
neither the current block nor the previous one; in another lane it lies outside the current slice. -/

namespace Sys2Proof.Machine

open Claims

/-! ## The mapping of `J1` -/

section
variable (area j1 : Word32)

theorem relPosition_eq_sub_mapY (h : 1 ≤ area.toNat) :
    (relPosition area j1).toNat = area.toNat - 1 - (mapY area j1).toNat := by
  rw [relPosition_toNat area j1 h, mapY_toNat, mapX_toNat]

theorem relPosition_lt (h : 1 ≤ area.toNat) : (relPosition area j1).toNat < area.toNat := by
  rw [relPosition_eq_sub_mapY area j1 h]
  omega

theorem mapY_of_area_zero : mapY 0 j1 = 0 := by
  simp [mapY]

theorem relPosition_of_area_zero : (relPosition 0 j1).toNat = 2 ^ 32 - 1 := by
  rw [relPosition, mapY_of_area_zero]
  rfl

theorem mapX_zero_toNat : (mapX 0).toNat = 0 := rfl

theorem mapX_allOnes_toNat : (mapX 0xFFFFFFFF).toNat = 0xFFFFFFFE := rfl

theorem mapY_zero_toNat : (mapY area 0).toNat = 0 := by
  rw [mapY_toNat, mapX_zero_toNat, Nat.mul_zero, Nat.zero_div]

/-- R143: the largest `J1` maps to the last value of `y`, as long as `2 * area` does not pass `2^32`. -/
theorem mapY_allOnes_toNat (h1 : 1 ≤ area.toNat) (h : area.toNat ≤ 2 ^ 31) :
    (mapY area 0xFFFFFFFF).toNat = area.toNat - 1 := by
  rw [mapY_toNat, mapX_allOnes_toNat]
  omega

end

/-- Settles O40: both products on numbers; a window that is not empty keeps `y` below `area`, so nothing wraps. -/
theorem windowMapping : Obligations.WindowMapping := by
  intro area j1
  refine ⟨mapX_toNat j1, mapX_toNat_lt j1, mapY_toNat area j1, ?_, fun h => ?_⟩
  · rintro rfl
    exact ⟨congrArg BitVec.toNat (mapY_of_area_zero j1), relPosition_of_area_zero j1⟩
  have hlt := mapY_toNat_lt area j1 h
  have hrel := relPosition_eq_sub_mapY area j1 h
  refine ⟨hlt, hrel, ?_, ?_, ?_⟩
  · rintro rfl
    exact ⟨mapX_zero_toNat, mapY_zero_toNat area, by rw [hrel, mapY_zero_toNat, Nat.sub_zero]⟩
  · rintro rfl
    refine ⟨mapX_allOnes_toNat, fun hmax => ?_⟩
    have hy := mapY_allOnes_toNat area h hmax
    exact ⟨hy, by rw [hrel, hy, Nat.sub_self]⟩
  · rintro rfl
    rw [hrel]
    exact Nat.zero_sub _

/-! ## Positions in a lane -/

theorem mod_of_lt_two_mul {a n : Nat} (h : a < 2 * n) : a % n = a ∨ n ≤ a ∧ a % n = a - n := by
  rcases Nat.lt_or_ge a n with hlt | hge
  · exact .inl (Nat.mod_eq_of_lt hlt)
  · exact .inr ⟨hge, by rw [Nat.mod_eq_sub_mod hge, Nat.mod_eq_of_lt (by omega)]⟩

/-- R46: an index in WM determines the lane and the position in the lane. -/
theorem blockIndex_inj {n a b x y : Nat} (hx : x < n) (hy : y < n) (h : a * n + x = b * n + y) : a = b ∧ x = y := by
  have hn : 0 < n := by omega
  have hlane : (a * n + x) / n = (b * n + y) / n := congrArg (· / n) h
  rw [Nat.mul_comm a, Nat.mul_comm b, Nat.mul_add_div hn, Nat.mul_add_div hn, Nat.div_eq_of_lt hx,
    Nat.div_eq_of_lt hy] at hlane
  obtain rfl : a = b := hlane
  exact ⟨rfl, Nat.add_left_cancel h⟩

/-- R146: the position of the previous block in its lane. -/
def previousPosition (sh : Shape) (slice index : Nat) : Nat :=
  if slice * sh.segLen + index = 0 then sh.laneLen - 1 else slice * sh.segLen + index - 1

section
variable {sh : Shape} {pass slice lane index : Nat} (ok : ShapeOk sh)
include ok

theorem blockIndex_lt_memBlocks {l x : Nat} (hl : l < sh.lanes) (hx : x < sh.laneLen) :
    l * sh.laneLen + x < sh.memBlocks := by
  have hend : (l + 1) * sh.laneLen ≤ sh.lanes * sh.laneLen := Nat.mul_le_mul_right _ hl
  rw [Nat.add_mul, Nat.one_mul] at hend
  have hblocks := ok.blocks
  omega

theorem prevIndex_eq_add : prevIndex sh lane slice index = lane * sh.laneLen + previousPosition sh slice index :=
  prevIndex_eq ok

variable (pos : PositionOk sh pass slice lane index)
include pos

theorem position_lt_laneLen : slice * sh.segLen + index < sh.laneLen := by
  have hslice : slice * sh.segLen ≤ 3 * sh.segLen := Nat.mul_le_mul_right _ (Nat.le_of_lt_succ pos.sliceLt)
  have hlane := ok.lane
  have hindex := pos.indexLt
  omega

theorem previousPosition_lt_laneLen : previousPosition sh slice index < sh.laneLen := by
  have hcur := position_lt_laneLen ok pos
  unfold previousPosition
  split <;> omega

/-! ## The window -/

theorem areaSize_eq_areaOf (sameLane : Prop) [Decidable sameLane] :
    (areaSize sh pass slice index (decide sameLane)).toNat = areaOf sh pass slice index sameLane := by
  have hlt : sh.laneLen < 2 ^ 32 := lt_of_le_of_lt (laneLen_le_memBlocks ok) ok.bound
  rw [areaSize_toNat _ _ _ _ _ ok.seg ok.lane hlt pos.sliceLt pos.indexLt pos.start, areaNat_eq_areaOf]

/-- R141, R143, R144: the reference position is a position of the window. -/
theorem exists_indexAlpha_eq (sameLane : Prop) [Decidable sameLane] (j1 : Word32) :
    ∃ rel, rel < areaOf sh pass slice index sameLane ∧
      indexAlpha sh pass slice index (decide sameLane) j1 = (windowStart sh pass slice + rel) % sh.laneLen := by
  have harea := areaSize_eq_areaOf ok pos sameLane
  have hpos := areaOf_pos ok pos sameLane
  refine ⟨_, ?_, rfl⟩
  rw [← harea] at hpos ⊢
  exact relPosition_lt _ j1 hpos

section
variable {sameLane : Prop} [Decidable sameLane]

/-- R141, R144, R145: in the current lane the window ends two positions before the current block, round the end of the lane
when it starts behind it. -/
theorem windowEnd_of_sameLane (h : sameLane) :
    windowStart sh pass slice + areaOf sh pass slice index sameLane + 1 = slice * sh.segLen + index ∨
    windowStart sh pass slice + areaOf sh pass slice index sameLane + 1 = slice * sh.segLen + index + sh.laneLen := by
  have hseg := ok.seg
  have hlane := ok.lane
  have hstart := pos.start
  have hdone : slice = 0 ∨ sh.segLen ≤ slice * sh.segLen := slice.eq_zero_or_pos.imp_right (Nat.le_mul_of_pos_left _)
  have hsucc : (slice + 1) * sh.segLen = slice * sh.segLen + sh.segLen := Nat.succ_mul slice sh.segLen
  simp only [windowStart_eq, areaOf, if_pos h]
  by_cases hpass : pass = 0
  · left
    rw [if_pos (.inl hpass), if_pos hpass]
    by_cases h0 : slice = 0
    · have hindex := hstart hpass h0
      rw [if_pos h0, h0]
      omega
    · rw [if_neg h0]
      omega
  · rw [if_neg hpass]
    by_cases h3 : slice = 3
    · left
      rw [if_pos (.inr h3), h3]
      omega
    · right
      rw [if_neg (by omega)]
      omega

theorem areaOf_le_of_sameLane (h : sameLane) : areaOf sh pass slice index sameLane + 2 ≤ sh.laneLen := by
  have hseg := ok.seg
  have hlane := ok.lane
  have hindex := pos.indexLt
  have hcur := position_lt_laneLen ok pos
  simp only [areaOf, if_pos h]
  split_ifs <;> omega

omit pos in
/-- R141, R144, R145: in another lane the window lies before the current slice, or behind it up to the slice's next turn. -/
theorem window_of_otherLane (h : ¬ sameLane) (h0 : ¬(pass = 0 ∧ slice = 0)) :
    windowStart sh pass slice + areaOf sh pass slice index sameLane ≤ slice * sh.segLen ∨
    slice * sh.segLen + sh.segLen ≤ windowStart sh pass slice ∧
      windowStart sh pass slice + areaOf sh pass slice index sameLane ≤ slice * sh.segLen + sh.laneLen := by
  have hlane := ok.lane
  have hsucc : (slice + 1) * sh.segLen = slice * sh.segLen + sh.segLen := Nat.succ_mul slice sh.segLen
  simp only [windowStart_eq, areaOf, if_neg h]
  by_cases hpass : pass = 0
  · left
    have hslice : slice ≠ 0 := fun hs => h0 ⟨hpass, hs⟩
    rw [if_pos (.inl hpass), if_pos hpass, if_neg hslice]
    split <;> omega
  · rw [if_neg hpass]
    by_cases h3 : slice = 3
    · left
      rw [if_pos (.inr h3), h3]
      split <;> omega
    · right
      rw [if_neg (by omega)]
      split <;> omega

theorem indexAlpha_ne_of_sameLane (h : sameLane) (j1 : Word32) :
    indexAlpha sh pass slice index (decide sameLane) j1 ≠ slice * sh.segLen + index ∧
    indexAlpha sh pass slice index (decide sameLane) j1 ≠ previousPosition sh slice index := by
  obtain ⟨rel, hrel, heq⟩ := exists_indexAlpha_eq ok pos sameLane j1
  have hend := windowEnd_of_sameLane ok pos h
  have hle := areaOf_le_of_sameLane ok pos h
  have hcur := position_lt_laneLen ok pos
  have hmod := mod_of_lt_two_mul (a := windowStart sh pass slice + rel) (n := sh.laneLen) (by omega)
  rw [heq, previousPosition]
  split <;> omega

theorem indexAlpha_slice_ne_of_otherLane (h : ¬ sameLane) (h0 : ¬(pass = 0 ∧ slice = 0)) (j1 : Word32) :
    indexAlpha sh pass slice index (decide sameLane) j1 / sh.segLen ≠ slice := by
  obtain ⟨rel, hrel, heq⟩ := exists_indexAlpha_eq ok pos sameLane j1
  have hseg := ok.seg
  have hwindow := window_of_otherLane (index := index) ok h h0
  have hcur := position_lt_laneLen ok pos
  have hmod := mod_of_lt_two_mul (a := windowStart sh pass slice + rel) (n := sh.laneLen) (by omega)
  rw [heq]
  intro hdiv
  rw [Nat.div_eq_iff (by omega)] at hdiv
  omega

end

/-! ## The reference block -/

theorem refLane_lt (rand : Word) : refLane sh pass slice lane rand < sh.lanes := by
  unfold refLane
  split
  · exact pos.laneLt
  · exact Nat.mod_lt _ ok.lanes

end

/-- Settles O41: an index in WM determines lane and position, so another lane cannot collide; in the current lane the window
ends before the previous block. -/
theorem referenceIsInBoundsAndNeverAliases : Obligations.ReferenceIsInBoundsAndNeverAliases := by
  intro sh pass slice lane index rand ok pos rl area ri
  have harea : 1 ≤ area.toNat := (areaSize_eq_areaOf ok pos (rl = lane)).symm ▸ areaOf_pos ok pos (rl = lane)
  have hrl : rl < sh.lanes := refLane_lt ok pos rand
  have hcur := position_lt_laneLen ok pos
  have hprev := previousPosition_lt_laneLen ok pos
  have hri : ri < sh.laneLen := Nat.mod_lt _ (by omega)
  have hne (h : rl = lane) := indexAlpha_ne_of_sameLane ok pos h (lowHalf rand)
  rw [prevIndex_eq_add ok]
  refine ⟨harea, Nat.le_sub_one_of_lt (relPosition_lt _ _ harea), hrl, hri, blockIndex_lt_memBlocks ok hrl hri,
    fun h => ?_, fun h => ?_, fun h => ?_, blockIndex_lt_memBlocks ok pos.laneLt hprev,
    blockIndex_lt_memBlocks ok pos.laneLt hcur, fun hother => ?_⟩
  · obtain ⟨hlane, hpos⟩ := blockIndex_inj hri hcur h
    exact (hne hlane).1 hpos
  · obtain ⟨hlane, hpos⟩ := blockIndex_inj hri hprev h
    exact (hne hlane).2 hpos
  · obtain ⟨-, hpos⟩ := blockIndex_inj hprev hcur h
    have hll := two_le_laneLen ok
    rw [previousPosition] at hpos
    split at hpos <;> omega
  · refine indexAlpha_slice_ne_of_otherLane ok pos hother (fun h0 => hother ?_) _
    exact if_pos h0

/-- Settles O42: the window's end on numbers, once for each side of the lane's end. -/
theorem sameLaneWindowEndsBeforeThePreviousBlock : Obligations.SameLaneWindowEndsBeforeThePreviousBlock := by
  intro sh pass slice lane index ok pos
  have harea : (areaSize sh pass slice index true).toNat = areaOf sh pass slice index True :=
    areaSize_eq_areaOf ok pos True
  rw [harea]
  rcases windowEnd_of_sameLane ok pos trivial with hend | hend
  · rw [hend]
  · rw [hend, Nat.add_mod_right]

end Sys2Proof.Machine

/-! PROOFS. The order of the fill (O59), the blocks pass 0 does not write (O43) and the final block (O60). -/

namespace Sys2Proof.Machine

open Claims

/-! ## The fill as one fold -/

theorem forUp_zero_eq_foldl_range {σ : Type} (body : Nat → σ → σ) (n : Nat) (s : σ) :
    forUp body n 0 s = (List.range n).foldl (fun s i => body i s) s := by
  rw [forUp_eq_foldl, List.range_eq_range']

section
variable (sh : Shape)

theorem fillMemory_eq_foldl (e : Engine) :
    fillMemory sh e = (segments sh).foldl (fun e x => fillSegment sh x.1 x.2.1 x.2.2 e) e := by
  simp only [fillMemory, fillPass, fillSlice, forUp_zero_eq_foldl_range, segments, List.foldl_flatMap, List.foldl_map]

theorem fillSegment_eq_foldl (pass slice lane : Nat) (e : Engine) :
    fillSegment sh pass slice lane e =
      (List.range' (firstOf pass slice) (sh.segLen - firstOf pass slice)).foldl
        (fun e index => fillOne sh pass slice lane index e) (startSegment sh pass slice lane e) :=
  forUp_eq_foldl _ _ _ _

/-! ## The number of turns -/

/-- R148: the turns of a segment. -/
def turns (pass slice : Nat) : Nat := sh.segLen - firstOf pass slice

/-- R149: the turns of a pass are those of its four slices, the same in each lane. -/
def passTurns (pass : Nat) : Nat :=
  sh.lanes * turns sh pass 0 + sh.lanes * turns sh pass 1 + sh.lanes * turns sh pass 2 + sh.lanes * turns sh pass 3

theorem sum_turns_of_pass (pass : Nat) :
    ((List.range 4).flatMap fun slice => (List.range sh.lanes).map fun _ => turns sh pass slice).sum =
      passTurns sh pass := by
  simp [List.range_succ, passTurns, Nat.add_assoc]

theorem sum_turns_eq :
    ((segments sh).map fun x => turns sh x.1 x.2.1).sum = ((List.range sh.passes).map (passTurns sh)).sum := by
  simp only [segments, List.map_flatMap, List.map_map, Function.comp_def]
  rw [List.flatMap_def, List.sum_flatten, List.map_map]
  simp only [Function.comp_def, sum_turns_of_pass]

theorem passTurns_succ (pass : Nat) : passTurns sh (pass + 1) = sh.lanes * (4 * sh.segLen) := by
  have hturns (slice : Nat) : turns sh (pass + 1) slice = sh.segLen := by simp [turns, firstOf]
  simp only [passTurns, hturns]
  ring

theorem passTurns_zero : passTurns sh 0 = sh.lanes * (sh.segLen - 2) + 3 * (sh.lanes * sh.segLen) := by
  simp only [passTurns, turns, firstOf]
  norm_num
  ring

variable {sh} (ok : ShapeOk sh)
include ok

/-- R149: each pass has a turn for every block, but the first has none for the first two blocks of a lane. -/
theorem sum_turns (h : 1 ≤ sh.passes) :
    ((segments sh).map fun x => turns sh x.1 x.2.1).sum = sh.passes * sh.memBlocks - 2 * sh.lanes := by
  obtain ⟨n, hn⟩ := Nat.exists_eq_add_of_le' h
  have hpass : sh.lanes * (4 * sh.segLen) = sh.memBlocks := by rw [ok.blocks, ok.lane]
  have hfirst : passTurns sh 0 + 2 * sh.lanes = sh.memBlocks := by
    obtain ⟨k, hk⟩ := Nat.exists_eq_add_of_le' ok.seg
    rw [passTurns_zero, ← hpass, hk, Nat.add_sub_cancel]
    ring
  rw [sum_turns_eq, hn, List.range_succ_eq_map, List.map_cons, List.sum_cons, List.map_map]
  simp only [Function.comp_def, Nat.succ_eq_add_one, passTurns_succ, hpass, List.map_const', List.sum_replicate,
    List.length_range, smul_eq_mul, Nat.add_mul, Nat.one_mul]
  omega

end

/-- Settles O59: the nested loops are one fold over the segments; the turns are added up pass by pass. -/
theorem fillRunsTheSegmentsInOrder : Obligations.FillRunsTheSegmentsInOrder :=
  fun sh => ⟨fillMemory_eq_foldl sh, fillSegment_eq_foldl sh, sum_turns⟩

/-! ## Pass 0 -/

section
variable {sh : Shape} (ok : ShapeOk sh)
include ok

/-- R36, R148: the turns of a segment are at positions of the loop. -/
theorem positionOk_of_turn {pass slice lane index : Nat} (hs : slice < 4) (hl : lane < sh.lanes)
    (hlo : firstIndex pass slice ≤ index) (hhi : index < firstIndex pass slice + (sh.segLen - firstIndex pass slice)) :
    PositionOk sh pass slice lane index where
  sliceLt := hs
  laneLt  := hl
  indexLt := by
    have hseg := ok.seg
    have hfirst : firstIndex pass slice ≤ 2 := by unfold firstIndex; split <;> omega
    omega
  start hpass hslice := by
    rwa [firstIndex, if_pos ⟨hpass, hslice⟩] at hlo

theorem two_le_position_of_pass_zero {slice lane index : Nat} (pos : PositionOk sh 0 slice lane index) :
    2 ≤ slice * sh.segLen + index := by
  rcases slice.eq_zero_or_pos with h0 | hs
  · exact le_add_left (pos.start rfl h0)
  · exact le_add_right (le_trans ok.seg (Nat.le_mul_of_pos_left _ hs))

/-- What the start of each segment of a pass and each of its turns keep, the pass keeps. -/
theorem fillPass_keeps_engine {P : Engine → Prop} {pass : Nat}
    (hstart : ∀ slice lane e, P e → P (startSegment sh pass slice lane e))
    (hturn : ∀ slice lane index e, PositionOk sh pass slice lane index → P e → P (fillOne sh pass slice lane index e))
    (e : Engine) (he : P e) : P (fillPass sh pass e) := by
  have segment slice lane (hs : slice < 4) (hl : lane < sh.lanes) e (he : P e) : P (fillSegment sh pass slice lane e) :=
    forUp_keeps P _ _ _ _
      (fun index e hlo hhi => hturn slice lane index e (positionOk_of_turn ok hs hl hlo hhi)) (hstart slice lane e he)
  have slices slice (hs : slice < 4) e (he : P e) : P (fillSlice sh pass slice e) :=
    forUp_keeps P _ _ _ _ (fun lane e _ hl => segment slice lane hs (by omega) e) he
  exact forUp_keeps P _ _ _ _ (fun slice e _ hs => slices slice (by omega) e) he

/-- R148: pass 0 writes no block at position 0 or 1 of a lane. -/
theorem readWM_fillPass_zero_first (e : Engine) (l : Nat) {x : Nat} (hx : x < 2) :
    (fillPass sh 0 e).readWM (l * sh.laneLen + x) = e.readWM (l * sh.laneLen + x) := by
  refine fillPass_keeps_engine ok (P := fun e' => e'.readWM (l * sh.laneLen + x) = e.readWM (l * sh.laneLen + x))
    (fun slice lane e' he => (readWM_congr (startSegment_wm ..) _).trans he) (fun slice lane index e' pos he => ?_) e rfl
  refine (readWM_fillOne_other e' fun h => ?_).trans he
  have hll := two_le_laneLen ok
  have hge := two_le_position_of_pass_zero ok pos
  obtain ⟨-, hpos⟩ := blockIndex_inj (by omega) (position_lt_laneLen ok pos) h
  omega

end

/-- Settles O43: the two seed blocks are the positions 0 and 1 of the lane. -/
theorem firstPassKeepsTheSeedBlocks : Obligations.FirstPassKeepsTheSeedBlocks :=
  fun _ e l ok _ => ⟨readWM_fillPass_zero_first ok e l Nat.zero_lt_two, readWM_fillPass_zero_first ok e l Nat.one_lt_two⟩

/-! ## The final block -/

/-- R8: a word of the XOR of blocks is the XOR of their words. -/
theorem getElem_forUp_xor (f : Nat → Block) (n a : Nat) (x : Block) (k : Fin 128) :
    (forUp (fun l (c : Block) => c.xor (f l)) n a x)[k] =
      ((List.range' a n).map fun l => (f l)[k]).foldl (· ^^^ ·) x[k] := by
  induction n generalizing a x with
  | zero => rfl
  | succ n ih =>
    have hxor : (x.xor (f a))[k] = x[k] ^^^ (f a)[k] := Block.getElem_xor x (f a) k k.isLt
    rw [forUp_succ, ih, hxor, List.range'_succ, List.map_cons, List.foldl_cons]

/-- Settles O60: XOR with the word 0 puts lane 0 in line with the lanes after it. -/
theorem finalBlockXorsTheLastBlocks : Obligations.FinalBlockXorsTheLastBlocks := by
  intro sh e hp hll
  refine ⟨fun k => ?_, rfl⟩
  obtain ⟨n, hn⟩ := Nat.exists_eq_add_of_le' hp
  have hlast (l : Nat) : e.readWM (l * sh.laneLen + (sh.laneLen - 1)) = lastOfLane sh e l := by
    rw [lastOfLane, Nat.add_sub_assoc hll]
  have hzero : 0 ^^^ (lastOfLane sh e 0)[k] = (lastOfLane sh e 0)[k] := BitVec.zero_xor
  simp only [hlast, hn, List.range_eq_range', List.range'_succ, List.map_cons, List.foldl_cons, hzero]
  rw [finalBlock, getElem_forUp_xor, hn, Nat.add_sub_cancel]

end Sys2Proof.Machine

/-! PROOFS. `A2ID_HASH` on an accepted request: the result and what is left (O45, O46), and that two machines which agree on
the operands compute the same result (O47). For the last, the two fills are run side by side: before every turn the engines
agree on the blocks of the region and, in a data-independent segment, on what the addresses are made from
(`SameAddressing`); everything a turn reads is among these. -/

namespace Sys2Proof.Machine

open Claims

/-! ## An accepted request -/

section
variable {s : State} (acc : Accepted s)
include acc

theorem lanes_and_memory_of_accepted : 1 ≤ s.reg.lanes.toNat ∧ 8 * s.reg.lanes.toNat ≤ s.reg.mCost.toNat :=
  lanes_and_memory_of_valid (validate_eq_none_of_firstFailure acc.valid)

theorem memblks_of_accepted : (derive s).reg.memblks.toNat = blocksOf s :=
  derive_memblks s (lanes_and_memory_of_accepted acc).2

/-- R112: the sizes in the registers are the ones the statement derives. -/
theorem shapeOf_derive_eq : shapeOf (derive s) = shape s := by
  obtain ⟨hp, hm⟩ := lanes_and_memory_of_accepted acc
  have hseg : (derive s).reg.seglen.toNat = segOf s := derive_seglen s hp hm
  have hlane : (derive s).reg.lanelen.toNat = 4 * segOf s := derive_lanelen s hp hm
  rw [shapeOf, memblks_of_accepted acc, hseg, hlane]
  rfl

theorem shape_ok : ShapeOk (shape s) := by
  obtain ⟨hp, hm⟩ := lanes_and_memory_of_accepted acc
  exact shapeOf_derive_eq acc ▸ shapeOf_derive_ok s hp hm

/-- R152: the model's phases are the statement's. -/
theorem runEngine_derive : runEngine (derive s) = phases s := by
  rw [runEngine, shapeOf_derive_eq acc]
  rfl

theorem finalizeHash_derive : finalizeHash (derive s) =
    writeResult s.reg.outlen.toNat (hashBytes s) { withSizes s with eng := phases s } := by
  rw [finalizeHash, runEngine_derive acc]
  rfl

/-- R152: the command delivers the result, zeroizes and reports success. -/
theorem exec_a2idHash_delivers : exec .a2idHash s = .next (reported 0 (zeroize (blocksOf s)
    (writeResult s.reg.outlen.toNat (hashBytes s) { withSizes s with eng := phases s }))) := by
  have hv := validate_eq_none_of_firstFailure acc.valid
  have ho : ¬ overCapacity (derive s) = true := by
    rw [overCapacity, decide_eq_true_eq, memblks_of_accepted acc]
    exact Nat.not_lt.2 acc.fits
  rw [exec, execA2idHash, acc.idle, if_neg Bool.false_ne_true, hv]
  rw [← finish_eq_reported, ← finalizeHash_derive acc, ← memblks_of_accepted acc]
  exact if_neg ho

/-- R113: the phases leave WM beyond the region alone. -/
theorem readWM_phases_beyond {j : Nat} (hj : blocksOf s ≤ j) : (phases s).readWM j = s.eng.readWM j := by
  have ok := shape_ok acc
  have kept := read_beyond_kept hj (s.eng.readWM j)
  refine fillMemory_keeps ok kept _ (seedLanes_keeps ok kept _ _ ?_)
  exact (readWM_allocate _ _ _).trans (if_neg (Nat.not_lt.2 hj))

end

/-- R47: zeroization leaves OUT alone, so it holds the result. -/
theorem outHolds_hashBytes {s : State} (hw : Memory.wf 0 s.outb) :
    OutHolds s.reg.outlen.toNat (hashBytes s) s (reported 0 (zeroize (blocksOf s)
      (writeResult s.reg.outlen.toNat (hashBytes s) { withSizes s with eng := phases s }))) :=
  ⟨rfl, readOut_writeResult _ _ { withSizes s with eng := phases s } hw (hlong_length _ _)⟩

/-- Settles O45: the state the command ends in, read field by field; only zeroized parts and the sizes differ from `s`. -/
theorem hashDeliversTheResult : Obligations.HashDeliversTheResult := by
  intro s acc hw
  obtain ⟨hp, hm⟩ := lanes_and_memory_of_accepted acc
  have ok := shapeOf_derive_ok s hp hm
  have hblocks : (withSizes s).reg.memblks.toNat = s.reg.lanes.toNat * (withSizes s).reg.lanelen.toNat := ok.blocks
  have hlane : (withSizes s).reg.lanelen.toNat = 4 * (withSizes s).reg.seglen.toNat := ok.lane
  refine ⟨_, exec_a2idHash_delivers acc, outHolds_hashBytes hw, hlong_length _ _, noSecretLeft_zeroize _ _ _,
    fun j hj => ?_, fun a ha => ?_, ?_, hlane, rfl⟩
  · exact ((readWM_zeroize _ _ j).trans (if_neg (Nat.not_lt.2 hj))).trans (readWM_phases_beyond acc hj)
  · exact (readIn_zeroize _ _ a).trans (if_neg (Nat.not_lt.2 ha))
  · refine hblocks.trans ?_
    rw [hlane]
    show _ = (withSizes s).reg.seglen.toNat * s.reg.lanes.toNat * 4
    ring

/-! ## Nothing secret is left -/

/-- R161: no error kind has the code of success. -/
theorem code_ne_zero (k : ErrKind) : k.code ≠ 0 := by
  cases k <;> decide

/-- R151: what a hash that ends with a code other than zero leaves. -/
theorem noSecretLeft_fail {k : ErrKind} (s : State) : (finish k.code (zeroize 0 s)).NoSecretLeft
    (if (finish k.code (zeroize 0 s)).reg.err = 0 then (finish k.code (zeroize 0 s)).reg.memblks.toNat else 0) := by
  have herr : (finish k.code (zeroize 0 s)).reg.err ≠ 0 := code_ne_zero k
  rw [if_neg herr, finish_eq_reported]
  exact noSecretLeft_zeroize _ _ _

/-- Settles O46: each outcome past the unit-busy check ends with `zeroize`; the rest holds of every command. -/
theorem hashLeavesNoSecret : Obligations.HashLeavesNoSecret := by
  intro s t ha h
  obtain ⟨hkept, hfail, -⟩ := exec_commandKeeps h
  refine ⟨?_, hkept, fun herr => ?_⟩
  · rcases exec_a2idHash_cases h with ⟨hbusy, -⟩ | ⟨-, k, -, rfl⟩ | ⟨-, -, -, rfl⟩ | ⟨-, -, -, rfl⟩
    · exact absurd hbusy (ha ▸ Bool.false_ne_true)
    · exact noSecretLeft_fail s
    · exact noSecretLeft_fail (derive s)
    · rw [finish_eq_reported]
      exact noSecretLeft_zeroize _ _ _
  · obtain ⟨hcnt, hout⟩ := hfail herr
    exact ⟨hcnt, fun a => by rw [readOut, readOut, hout]⟩

/-! ## Two fills side by side -/

/-- Two engines hold the same blocks below `B`, both memories in canonical form. -/
structure AgreeBelow (B : Nat) (e e' : Engine) : Prop where
  wf     : Memory.wf Block.zero e.wm
  wf'    : Memory.wf Block.zero e'.wm
  blocks : ∀ j, j < B → e.readWM j = e'.readWM j

/-- R133, R147: two engines before turn `index` of a data-independent segment generate the same addresses: `ZERO` is zero,
`INP` is the same, and so is `ADDR`, unless the turn regenerates it. -/
structure SameAddressing (index : Nat) (e e' : Engine) : Prop where
  zeroB  : e.zeroB = Block.zero
  zeroB' : e'.zeroB = Block.zero
  inp    : e.inp = e'.inp
  addr   : index % 128 ≠ 0 → e.addr = e'.addr

/-- What two engines agree on before turn `index` of a segment. -/
structure AgreeAtTurn (sh : Shape) (pass slice index : Nat) (e e' : Engine) : Prop where
  region     : AgreeBelow sh.memBlocks e e'
  addressing : pass = 0 → slice < 2 → SameAddressing index e e'

section
variable {sh : Shape} {pass slice lane index : Nat} {e e' : Engine}

theorem AgreeBelow.congr {B : Nat} {f f' : Engine} (h : AgreeBelow B e e') (hf : f.wm = e.wm) (hf' : f'.wm = e'.wm) :
    AgreeBelow B f f' where
  wf         := hf ▸ h.wf
  wf'        := hf' ▸ h.wf'
  blocks j hj := by rw [readWM_congr hf, readWM_congr hf', h.blocks j hj]

/-- R133, R147: the addresses of the turn are the same, regenerated or not. -/
theorem SameAddressing.addressesOf_eq (h : SameAddressing index e e') (h0 : pass = 0) (hs : slice < 2) :
    addressesOf pass slice index e = addressesOf pass slice index e' := by
  by_cases hi : index % 128 = 0
  · rw [addressesOf, addressesOf, if_pos ⟨h0, hs, hi⟩, if_pos ⟨h0, hs, hi⟩, nextAddresses_addr h.zeroB,
      nextAddresses_addr h.zeroB', nextAddresses_inp, nextAddresses_inp, h.inp]
  · have hno : ¬(pass = 0 ∧ slice < 2 ∧ index % 128 = 0) := fun hr => hi hr.2.2
    rw [addressesOf, addressesOf, if_neg hno, if_neg hno, h.addr hi]

variable (ok : ShapeOk sh) (pos : PositionOk sh pass slice lane index)
include ok pos

/-! What a turn leaves in the registers it generates addresses from. -/

theorem fillOne_zeroB : (fillOne sh pass slice lane index e).zeroB = e.zeroB := by
  rw [fillOne_eq _ _ _ _ _ ok pos, fillBlock_zeroB, regenerated_zeroB, setPosition_zeroB]

theorem fillOne_addr : (fillOne sh pass slice lane index e).addr = addressesOf pass slice index e := by
  rw [fillOne_eq _ _ _ _ _ ok pos, fillBlock_addr, regenerated_addr, addressesOf_setPosition]

theorem fillOne_inp : (fillOne sh pass slice lane index e).inp =
    if pass = 0 ∧ slice < 2 ∧ index % 128 = 0 then e.inp.set 6 (e.inp[6] + 1) else e.inp := by
  rw [fillOne_eq _ _ _ _ _ ok pos, fillBlock_inp, regenerated_inp, setPosition_inp]

/-! The three blocks of a turn lie in the region. -/

theorem curIndex_lt_memBlocks : curIndex sh lane slice index < sh.memBlocks :=
  blockIndex_lt_memBlocks ok pos.laneLt (position_lt_laneLen ok pos)

theorem previousOf_lt_memBlocks : previousOf sh lane slice index < sh.memBlocks :=
  blockIndex_lt_memBlocks ok pos.laneLt (previousPosition_lt_laneLen ok pos)

theorem referenceOf_lt_memBlocks (rand : Word) : referenceOf sh pass slice lane index rand.toNat < sh.memBlocks := by
  rw [← refIndex_eq ok pos]
  exact blockIndex_lt_memBlocks ok (refLane_lt ok pos rand) (Nat.mod_lt _ (by have := two_le_laneLen ok; omega))

variable (h : AgreeAtTurn sh pass slice index e e')
include h

theorem AgreeAtTurn.randOf_eq : randOf sh pass slice lane index e = randOf sh pass slice lane index e' := by
  unfold randOf
  split
  case isTrue hi => rw [(h.addressing hi.1 hi.2).addressesOf_eq hi.1 hi.2]
  case isFalse => rw [h.region.blocks _ (previousOf_lt_memBlocks ok pos)]

theorem AgreeAtTurn.turnInput_eq :
    turnInput sh pass slice lane index e = turnInput sh pass slice lane index e' := by
  rw [turnInput, turnInput, h.randOf_eq ok pos, h.region.blocks _ (previousOf_lt_memBlocks ok pos),
    h.region.blocks _ (referenceOf_lt_memBlocks ok pos _)]

theorem AgreeAtTurn.fillOne_region :
    AgreeBelow sh.memBlocks (fillOne sh pass slice lane index e) (fillOne sh pass slice lane index e') where
  wf  := wf_fillOne e h.region.wf
  wf' := wf_fillOne e' h.region.wf'
  blocks j hj := by
    by_cases hcur : j = curIndex sh lane slice index
    · rw [hcur, readWM_fillOne_cur e h.region.wf ok pos, readWM_fillOne_cur e' h.region.wf' ok pos,
        h.turnInput_eq ok pos, h.region.blocks _ (curIndex_lt_memBlocks ok pos)]
    · rw [readWM_fillOne_other e hcur, readWM_fillOne_other e' hcur, h.region.blocks j hj]

theorem AgreeAtTurn.fillOne_addressing (h0 : pass = 0) (hs : slice < 2) :
    SameAddressing (index + 1) (fillOne sh pass slice lane index e) (fillOne sh pass slice lane index e') where
  zeroB  := (fillOne_zeroB ok pos).trans (h.addressing h0 hs).zeroB
  zeroB' := (fillOne_zeroB ok pos).trans (h.addressing h0 hs).zeroB'
  inp    := by rw [fillOne_inp ok pos, fillOne_inp ok pos, (h.addressing h0 hs).inp]
  addr _ := by rw [fillOne_addr ok pos, fillOne_addr ok pos, (h.addressing h0 hs).addressesOf_eq h0 hs]

/-- R148: a turn keeps the agreement. -/
theorem AgreeAtTurn.fillOne :
    AgreeAtTurn sh pass slice (index + 1) (fillOne sh pass slice lane index e) (fillOne sh pass slice lane index e') :=
  ⟨h.fillOne_region ok pos, h.fillOne_addressing ok pos⟩

end

/-! ## The loops side by side -/

section
variable {sh : Shape} {pass slice lane : Nat} {e e' : Engine}

/-- R134, R148: the start of a data-independent segment makes the addressing the same, whatever the registers held. -/
theorem sameAddressing_startSegment (hs : slice < 2) (e e' : Engine) :
    SameAddressing (firstIndex 0 slice) (startSegment sh 0 slice lane e) (startSegment sh 0 slice lane e') where
  zeroB  := startSegment_zeroB sh hs lane e
  zeroB' := startSegment_zeroB sh hs lane e'
  inp    := by rw [startSegment_inp sh hs, startSegment_inp sh hs]
  addr h := by
    obtain rfl | rfl : slice = 0 ∨ slice = 1 := by omega
    · rw [startSegment_slice0, startSegment_slice0, nextAddresses_addr rfl, nextAddresses_addr rfl, nextAddresses_inp,
        nextAddresses_inp]
      rfl
    · exact absurd rfl h

variable (ok : ShapeOk sh)
include ok

theorem AgreeBelow.fillSegment (hs : slice < 4) (hl : lane < sh.lanes) (h : AgreeBelow sh.memBlocks e e') :
    AgreeBelow sh.memBlocks (fillSegment sh pass slice lane e) (fillSegment sh pass slice lane e') := by
  have hstart : AgreeAtTurn sh pass slice (firstIndex pass slice) (startSegment sh pass slice lane e)
      (startSegment sh pass slice lane e') :=
    ⟨h.congr (startSegment_wm ..) (startSegment_wm ..), by rintro rfl hs; exact sameAddressing_startSegment hs e e'⟩
  exact (forUp_relates_advances (AgreeAtTurn sh pass slice) _ _ _ _ _ _
    (fun index _ _ hlo hhi h => h.fillOne ok (positionOk_of_turn ok hs hl hlo hhi)) hstart).region

theorem AgreeBelow.fillSlice (hs : slice < 4) (h : AgreeBelow sh.memBlocks e e') :
    AgreeBelow sh.memBlocks (fillSlice sh pass slice e) (fillSlice sh pass slice e') :=
  forUp_relates (AgreeBelow sh.memBlocks) _ _ _ _ _ _ (fun lane _ _ _ hl h => h.fillSegment ok hs (by omega)) h

theorem AgreeBelow.fillPass (h : AgreeBelow sh.memBlocks e e') :
    AgreeBelow sh.memBlocks (fillPass sh pass e) (fillPass sh pass e') :=
  forUp_relates (AgreeBelow sh.memBlocks) _ _ _ _ _ _ (fun slice _ _ _ hs h => h.fillSlice ok (by omega)) h

theorem AgreeBelow.fillMemory (h : AgreeBelow sh.memBlocks e e') :
    AgreeBelow sh.memBlocks (fillMemory sh e) (fillMemory sh e') :=
  forUp_relates (AgreeBelow sh.memBlocks) _ _ _ _ _ _ (fun _ _ _ _ _ h => h.fillPass ok) h

/-- R150: engines that agree on the region have the same final block. -/
theorem AgreeBelow.finalBlock_blockC (h : AgreeBelow sh.memBlocks e e') :
    (finalBlock sh e).blockC = (finalBlock sh e').blockC := by
  have hll : 1 ≤ sh.laneLen := Nat.le_of_succ_le (two_le_laneLen ok)
  obtain ⟨hC, -⟩ := finalBlockXorsTheLastBlocks sh e ok.lanes hll
  obtain ⟨hC', -⟩ := finalBlockXorsTheLastBlocks sh e' ok.lanes hll
  have hword (k : Fin 128) : (finalBlock sh e).blockC[k] = (finalBlock sh e').blockC[k] := by
    rw [hC, hC']
    congr 1
    refine List.map_congr_left fun l hl => ?_
    rw [h.blocks _ (blockIndex_lt_memBlocks ok (List.mem_range.1 hl) (by omega))]
  exact Vector.ext fun k hk => hword ⟨k, hk⟩

end

/-! ## Two machines with the same operands -/

/-- R152, R193: what the result of a hash is a function of; the premises of the statement on two states. -/
structure SameOperands (s s' : State) : Prop where
  h0MemSource : s.cfg.h0MemSource = s'.cfg.h0MemSource
  tCost       : s.reg.tCost = s'.reg.tCost
  lanes       : s.reg.lanes = s'.reg.lanes
  outlen      : s.reg.outlen = s'.reg.outlen
  pwdlen      : s.reg.pwdlen = s'.reg.pwdlen
  saltlen     : s.reg.saltlen = s'.reg.saltlen
  blocks      : blocksOf s = blocksOf s'
  mCost       : s.cfg.h0MemSource = .requested → s.reg.mCost = s'.reg.mCost
  inBytes     : ∀ a, a < s.reg.pwdlen.toNat + s.reg.saltlen.toNat → readIn s a = readIn s' a

section
variable {s s' : State} (same : SameOperands s s')
include same

theorem SameOperands.seedMemory_eq : seedMemory s = seedMemory s' := by
  unfold seedMemory
  rw [← same.h0MemSource]
  cases hsrc : s.cfg.h0MemSource with
  | derived => exact same.blocks
  | requested => exact congrArg BitVec.toNat (same.mCost hsrc)

theorem SameOperands.inWindow_eq {off len : Nat} (h : off + len ≤ s.reg.pwdlen.toNat + s.reg.saltlen.toNat) :
    inWindow s off len = inWindow s' off len := by
  refine List.map_congr_left fun k hk => same.inBytes _ ?_
  have hlt := List.mem_range.1 hk
  omega

theorem SameOperands.seedInput_eq : seedInput s = seedInput s' := by
  have hpwd := same.inWindow_eq (off := 0) (len := s.reg.pwdlen.toNat) (by omega)
  have hsalt := same.inWindow_eq (off := s.reg.pwdlen.toNat) (len := s.reg.saltlen.toNat) (by omega)
  rw [seedInput, hpwd, hsalt, same.lanes, same.outlen, same.seedMemory_eq, same.tCost, same.pwdlen, same.saltlen, seedInput]

theorem SameOperands.seedBlock_eq (l counter : Nat) : seedBlock s l counter = seedBlock s' l counter := by
  rw [seedBlock, seedBlock, same.seedInput_eq]

variable (acc : Accepted s)
include acc

/-- R112: with the same lanes the number of blocks determines the segment length. -/
theorem SameOperands.segOf_eq : segOf s = segOf s' := by
  have hblocks : segOf s * 4 * s.reg.lanes.toNat = segOf s' * 4 * s.reg.lanes.toNat := by
    have h := same.blocks
    rwa [blocksOf, blocksOf, ← same.lanes] at h
  have h4 := Nat.eq_of_mul_eq_mul_right (lanes_and_memory_of_accepted acc).1 hblocks
  omega

theorem SameOperands.shape_eq : shape s = shape s' := by
  rw [shape, shape, same.tCost, same.lanes, same.blocks, same.segOf_eq acc]

end

/-- R113 to R115: the engine before the fill. -/
def seeded (s : State) : Engine := seedLanes (withSizes s) (shape s) (allocate (blocksOf s) s.eng)

/-- The index in WM of a first or second block of a lane. -/
def IsSeedIndex (sh : Shape) (j l : Nat) : Prop := j = l * sh.laneLen ∨ j = l * sh.laneLen + 1

section
variable {s : State} (acc : Accepted s) (hwf : Memory.wf Block.zero s.eng.wm)
include acc hwf

/-- R113 to R115: every block of the region before the fill. -/
theorem seeded_spec : Memory.wf Block.zero (seeded s).wm ∧
    (∀ l, l < (shape s).lanes → (seeded s).readWM (l * (shape s).laneLen) = seedBlock s l 0 ∧
      (seeded s).readWM (l * (shape s).laneLen + 1) = seedBlock s l 1) ∧
    ∀ j, j < (shape s).memBlocks → (∀ l, l < (shape s).lanes → ¬ IsSeedIndex (shape s) j l) →
      (seeded s).readWM j = Block.zero := by
  obtain ⟨hseeds, hothers, -, -, hwf', -⟩ :=
    seedLanesFillTheFirstBlocks s s.eng (validate_eq_none_of_firstFailure acc.valid) hwf
  have hlane : (derive s).reg.lanelen.toNat = (shape s).laneLen := congrArg Shape.laneLen (shapeOf_derive_eq acc)
  rw [shapeOf_derive_eq acc, memblks_of_accepted acc, hlane] at hseeds hothers
  rw [shapeOf_derive_eq acc, memblks_of_accepted acc] at hwf'
  refine ⟨hwf', hseeds, fun j hj hno => ?_⟩
  exact (hothers j fun l hl => not_or.1 (hno l hl)).trans (if_pos hj)

end

section
variable {s s' : State} (acc : Accepted s) (acc' : Accepted s') (hwf : Memory.wf Block.zero s.eng.wm)
  (hwf' : Memory.wf Block.zero s'.eng.wm) (same : SameOperands s s')
include acc acc' hwf hwf' same

/-- R113 to R115: the same operands seed the same region. -/
theorem agreeBelow_seeded : AgreeBelow (shape s).memBlocks (seeded s) (seeded s') := by
  obtain ⟨hw, hseeds, hzero⟩ := seeded_spec acc hwf
  obtain ⟨hw', hseeds', hzero'⟩ := seeded_spec acc' hwf'
  rw [← same.shape_eq acc] at hseeds' hzero'
  refine ⟨hw, hw', fun j hj => ?_⟩
  by_cases hseed : ∃ l, l < (shape s).lanes ∧ IsSeedIndex (shape s) j l
  · obtain ⟨l, hl, rfl | rfl⟩ := hseed
    · rw [(hseeds l hl).1, (hseeds' l hl).1, same.seedBlock_eq]
    · rw [(hseeds l hl).2, (hseeds' l hl).2, same.seedBlock_eq]
  · have hno l (hl : l < (shape s).lanes) : ¬ IsSeedIndex (shape s) j l := fun h => hseed ⟨l, hl, h⟩
    rw [hzero j hj hno, hzero' j hj hno]

theorem hashBytes_eq_of_sameOperands : hashBytes s = hashBytes s' := by
  have ok := shape_ok acc
  have hC : (phases s).blockC = (phases s').blockC := by
    have h := ((agreeBelow_seeded acc acc' hwf hwf' same).fillMemory ok).finalBlock_blockC ok
    rwa [seeded, seeded, ← phases, same.shape_eq acc, ← phases] at h
  rw [hashBytes, hashBytes, hC, same.outlen]

end

/-- Settles O47: both commands deliver their result bytes, and these are the same. -/
theorem resultDependsOnTheOperandsOnly : Obligations.ResultDependsOnTheOperandsOnly := by
  intro s s' acc acc' hout hout' hwf hwf' hsrc ht hp hn hpwd hsalt hblocks hm hin
  have hbytes := hashBytes_eq_of_sameOperands acc acc' hwf hwf' ⟨hsrc, ht, hp, hn, hpwd, hsalt, hblocks, hm, hin⟩
  obtain ⟨hcnt, hread⟩ := outHolds_hashBytes hout
  obtain ⟨hcnt', hread'⟩ := outHolds_hashBytes hout'
  refine ⟨_, _, exec_a2idHash_delivers acc, exec_a2idHash_delivers acc', ?_, fun a ha => ?_⟩
  · rw [hcnt, hcnt', hn]
  · rw [hread, hread', if_pos ha, if_pos (hn ▸ ha), hbytes]

end Sys2Proof.Machine

/-! PROOFS. How commands end (O7, O48, O49). Every path of every command is `complete` or `raiseErr`, so it answers a next
state with ERR and STATUS just written and a code of R161's table in ERR. -/

namespace Sys2Proof.Machine

open Claims

/-! ## The end of a command -/

/-- R161: zero, the codes of A2ID_HASH up to 13, and the four from 16 on; 14 and 15 stand for nothing. -/
def OutcomeCode (c : BitVec 5) : Prop := c.toNat ≤ 13 ∨ (16 ≤ c.toNat ∧ c.toNat ≤ 19)

theorem outcomeCode_of_errKind (k : ErrKind) : OutcomeCode k.code := by
  unfold OutcomeCode
  cases k <;> decide

/-- R163: a next state whose last change was that of `finish`, with a code of the table. -/
def Finishes (o : Host.Outcome State Fault Refusal) : Prop := ∃ c t, OutcomeCode c ∧ o = .next (finish c t)

theorem finishes_complete (s : State) : Finishes (complete s) := ⟨0, s, .inl (Nat.zero_le 13), rfl⟩

theorem finishes_raiseErr (k : ErrKind) (s : State) : Finishes (raiseErr k s) :=
  ⟨k.code, s, outcomeCode_of_errKind k, rfl⟩

theorem finishes_ite {p : Prop} [Decidable p] {o o' : Host.Outcome State Fault Refusal} (h : Finishes o)
    (h' : Finishes o') : Finishes (if p then o else o') := by
  split
  · exact h
  · exact h'

theorem finishes_a2idHash (s : State) : Finishes (execA2idHash s) := by
  refine finishes_ite (finishes_raiseErr _ s) ?_
  cases validate s with
  | some k => exact finishes_raiseErr k _
  | none => exact finishes_ite (finishes_raiseErr _ _) (finishes_complete _)

/-- Each command is a chain of checks; its paths are the branches of the chain. -/
theorem exec_finishes (i : Instr) (s : State) : Finishes (exec i s) := by
  cases i with
  | b2bInit n => exact finishes_ite (finishes_raiseErr _ s) (finishes_complete _)
  | b2bUpdate => exact finishes_ite (finishes_raiseErr _ s) (finishes_ite (finishes_raiseErr _ s) (finishes_complete _))
  | b2bFinal => exact finishes_ite (finishes_raiseErr _ s) (finishes_complete _)
  | b2bLong =>
    exact finishes_ite (finishes_raiseErr _ s)
      (finishes_ite (finishes_raiseErr _ s) (finishes_ite (finishes_raiseErr _ s) (finishes_complete _)))
  | a2idHash => exact finishes_a2idHash s

/-- R61, R65: a word that is no command ends as a failing command does. -/
theorem runWord_finishes (w : Word32) (s : State) : Finishes (runWord w s) := by
  unfold runWord
  cases decode w with
  | ok i => exact exec_finishes i s
  | error r => exact finishes_raiseErr _ s

/-! ## Every step answers a next state -/

theorem serve_answersNext (a : Access) (s : State) : ∃ t, serve a s = .next t := by
  cases a with
  | writeReg i v =>
    rw [serve]
    split
    · obtain ⟨c, t, -, h⟩ := runWord_finishes v (writeReg s i v)
      exact ⟨finish c t, h⟩
    · exact ⟨_, rfl⟩
  | readReg i => exact ⟨_, rfl⟩
  | writeIn o b => exact ⟨_, rfl⟩
  | readOut o => exact ⟨_, rfl⟩
  | reset => exact ⟨_, rfl⟩

/-- Settles O7: the host has no access pending, or the step serves the first. -/
theorem everyStepAnswersNext : Obligations.EveryStepAnswersNext := by
  intro s
  cases hp : s.host.pending with
  | nil => exact ⟨s, nothingChangesWithoutHostAccess s hp⟩
  | cons a rest =>
    rw [State.GoesOn, step_of_pending hp]
    exact serve_answersNext a _

/-! ## The outcome as the host reads it -/

/-- R22, R163: STATUS and ERR of the register map, as `finish` writes them. -/
theorem statusBits_as_read : ∀ (c : BitVec 5) (a : Bool), ((statusBits c a).setWidth 32).toNat =
    1 + (if c.setWidth 32 = (0 : Word32) then 0 else 2) + (if a = true then 4 else 0) := by decide

theorem readReg_err_toNat (s : State) : (readReg s 2).toNat = s.reg.err.toNat :=
  BitVec.toNat_setWidth_of_le (by decide)

/-- Settles O48: a command's state is one that `finish` left, and the host reads what it wrote. -/
theorem everyCommandReportsItsOutcome : Obligations.EveryCommandReportsItsOutcome := by
  intro i s t h
  obtain ⟨c, u, hc, hexec⟩ := exec_finishes i s
  obtain rfl := next_inj (hexec.symm.trans h)
  refine ⟨statusBits_as_read c u.b2b.active, ?_⟩
  rw [readReg_err_toNat]
  exact hc

/-! ## The unit in the wrong state -/

theorem exec_a2idHash_busy {s : State} (ha : s.b2b.active = true) : exec .a2idHash s = .next (reported 17 s) := by
  rw [exec, execA2idHash, if_pos ha, raiseErr, finish_eq_reported, ErrKind.code]

/-- Settles O49: each of the four commands checks the unit first. -/
theorem wrongUnitStateIsRefused : Obligations.WrongUnitStateIsRefused :=
  fun _ => ⟨fun ha => ⟨exec_b2bUpdate_idle ha, exec_b2bFinal_idle ha⟩,
    fun ha => ⟨exec_b2bLong_busy ha, exec_a2idHash_busy ha⟩⟩

end Sys2Proof.Machine

/-! PROOFS. The reset event as a step (O17). -/

namespace Sys2Proof.Machine

open Claims

/-! ## The reset event -/

/-- R185: the event keeps the parameters and the host alone, so what is left is the host without the access served. -/
theorem resetEvent_taken (rest : List Access) (s : State) :
    resetEvent (taken rest s) = { State.resetWith s.cfg with host := ⟨rest, s.host.replies⟩ } := rfl

/-- Settles O17: the step serves the reset event, which leaves the reset state and the host as it then is. -/
theorem resetEventReachesTheResetState : Obligations.ResetEventReachesTheResetState := by
  intro s rest h
  rw [step_of_pending h, serve, resetEvent_taken]

end Sys2Proof.Machine
